-- ==== Sys2Proof/Word.lean ====
section
/-! DEFINITION. The word types: bytes of a record, cells, 48-bit instruction words. -/

namespace Sys2Proof

/-- One byte of an instruction record (R43: the only place where bytes exist). -/
abbrev Byte := BitVec 8

/-- The contents of one cell: `CELL_BITS = 32` (R20; decision D3, log entry 4). -/
abbrev Cell := BitVec 32

/-- The 48-bit word a 6-byte record spells (R8, R60). -/
abbrev InstrWord := BitVec 48

end Sys2Proof
end

