-- ==== Sys2Proof/Config.lean ====
section
/-! DEFINITION. The parameters the spec leaves to an implementation (R7). This hardware's values stand in
Machine/Params.lean; everything that depends on a parameter takes a `Config`, so that a result can be stated
for every value of it. -/

namespace Sys2Proof

/-- The parameters of R7. -/
structure Config where
  /-- `MEM_SIZE`, the number of cells (D5, log entry 3). -/
  memSize : Nat
  /-- `MEM_INIT`, what a cell holds before anything has written it (D4, log entry 2). -/
  memInit : Nat → Cell
  /-- `PROG_MAX`, a bound on the program length, `none` for no bound (D10, log entry 7). -/
  progMax : Option Nat
  /-- `STRICT_DECODE`: whether a word with a bit set that no field owns is malformed (D2, log entry 6). -/
  strictDecode : Bool

end Sys2Proof
end

