-- ==== Sys2Proof/Machine/Params.lean ====
section
/-! DEFINITION. The values of the parameters on this hardware (R7). -/

namespace Sys2Proof

/-- This hardware (R7): 4096 cells, every cell 0 before it is written (DESIGN CHOICE: the spec's default, D4,
log entry 2), no bound on the program length, the lenient decoder. -/
def hw : Config where
  memSize := 4096
  memInit := fun _ => 0
  progMax := none
  strictDecode := false

/-- Whether a program of `n` instructions fits the program store (D10, U16). -/
def Config.holds (c : Config) (n : Nat) : Bool :=
  match c.progMax with
  | none => true
  | some m => decide (n ≤ m)

end Sys2Proof
end

