-- ==== Sys2Proof/Syntax.lean ====
section
/-! DEFINITION. The instruction values (R100): one constructor per row of spec/opcode_table.json, the operands
natural numbers in the document's order. -/

namespace Sys2Proof

/-- An instruction value (R100): the four constructors of the closed sum, operand order as in R61. -/
inductive Instr where
  /-- `LOAD_CONST(dest, const)`, R120. -/
  | loadConst (dest const : Nat)
  /-- `READ_MEMORY(dest, src, offset)`, R122. -/
  | readMemory (dest src offset : Nat)
  /-- `WRITE_MEMORY(src, dest)`, R125: the source comes first. -/
  | writeMemory (src dest : Nat)
  /-- `BITREVERSE(dest, src)`, R140. -/
  | bitreverse (dest src : Nat)
  deriving DecidableEq, Repr

end Sys2Proof
end

