-- ==== Sys2Proof/WellFormed.lean ====
section
/-! DEFINITION. In-range instruction values (R100): each operand below `2^width` of its field (R6, R61). -/

namespace Sys2Proof

/-- Every operand fits its field: 12 bits for an address, 25 for `const`, 5 for `offset` (R61, R100). -/
def Instr.inRange : Instr → Bool
  | .loadConst dest const => decide (dest < 2 ^ 12) && decide (const < 2 ^ 25)
  | .readMemory dest src offset =>
      decide (dest < 2 ^ 12) && decide (src < 2 ^ 12) && decide (offset < 2 ^ 5)
  | .writeMemory src dest => decide (src < 2 ^ 12) && decide (dest < 2 ^ 12)
  | .bitreverse dest src => decide (dest < 2 ^ 12) && decide (src < 2 ^ 12)

/-- The instruction value is in range (R100). -/
abbrev Instr.WellFormed (i : Instr) : Prop := i.inRange = true

end Sys2Proof
end

