-- ==== Sys2Proof/Decode.lean ====
section
/-! DEFINITION. DECODE, total on byte strings, and ENCODE (spec/30_encoding.md, spec/40_instruction_model.md):
the opcodes and shapes, the record's byte order, the lenient and the strict decoder, the typed and the raw
encoder, and the host's `decodeTableWord`. -/

namespace Sys2Proof

/-! ## Opcodes -/

/-- The four opcodes (R61). -/
inductive Opcode where
  | loadConst | readMemory | writeMemory | bitreverse
  deriving DecidableEq, Repr

/-- The 6-bit numeric code (R61). -/
def Opcode.code : Opcode → Nat
  | .loadConst => 60
  | .readMemory => 39
  | .writeMemory => 53
  | .bitreverse => 28

/-- The lowest bit of the opcode field, which depends on the shape (R62; D1, log entry 5). -/
def Opcode.shift : Opcode → Nat
  | .loadConst => 42
  | .readMemory => 29
  | .writeMemory => 24
  | .bitreverse => 24

/-- The declared operand count (R61, R102). -/
def Opcode.arity : Opcode → Nat
  | .loadConst => 2
  | .readMemory => 3
  | .writeMemory => 2
  | .bitreverse => 2

/-- The opcode of an instruction value. -/
def Instr.opcode : Instr → Opcode
  | .loadConst _ _ => .loadConst
  | .readMemory _ _ _ => .readMemory
  | .writeMemory _ _ => .writeMemory
  | .bitreverse _ _ => .bitreverse

/-- The cell an instruction writes (R22). -/
def Instr.dest : Instr → Nat
  | .loadConst dest _ => dest
  | .readMemory dest _ _ => dest
  | .writeMemory _ dest => dest
  | .bitreverse dest _ => dest

/-! ## Words and records -/

/-- The field `W[hi:lo]` as an unsigned number (R13). -/
def field (W : InstrWord) (hi lo : Nat) : Nat := W.toNat / 2 ^ lo % 2 ^ (hi + 1 - lo)

/-- The six bytes of a word, big-endian: `B[k] = W[47-8k : 40-8k]` (R8, R43). -/
def recordBytes (W : InstrWord) : List Byte :=
  [BitVec.ofNat 8 (field W 47 40), BitVec.ofNat 8 (field W 39 32), BitVec.ofNat 8 (field W 31 24),
   BitVec.ofNat 8 (field W 23 16), BitVec.ofNat 8 (field W 15 8), BitVec.ofNat 8 (field W 7 0)]

/-- The word a byte string of length 6 spells (R8, R104); no word for any other length. -/
def recordWord : List Byte → Option InstrWord
  | [b0, b1, b2, b3, b4, b5] =>
      some (BitVec.ofNat 48 (b0.toNat * 2 ^ 40 + b1.toNat * 2 ^ 32 + b2.toNat * 2 ^ 24
        + b3.toNat * 2 ^ 16 + b4.toNat * 2 ^ 8 + b5.toNat))
  | _ => none

/-! ## Canonical words -/

/-- The canonical mask of a row (R72). -/
def Opcode.canonicalMask : Opcode → InstrWord
  | .loadConst => 0xFC000000001F#48
  | .readMemory => 0xFFFFE0000000#48
  | .writeMemory => 0xFFFFFF000000#48
  | .bitreverse => 0xFFFFFF000000#48

/-- The canonical match of a row (R72). -/
def Opcode.canonicalMatch : Opcode → InstrWord
  | .loadConst => 0xF00000000000#48
  | .readMemory => 0x0004E0000000#48
  | .writeMemory => 0x000035000000#48
  | .bitreverse => 0x00001C000000#48

/-- The word is the canonical encoding of some instruction of this opcode, by mask and match (R72). -/
def Opcode.ownsCanonical (o : Opcode) (W : InstrWord) : Bool := W &&& o.canonicalMask == o.canonicalMatch

/-- The word is canonical: one of the four mask and match pairs holds of it (R72). -/
def isCanonical (W : InstrWord) : Bool :=
  Opcode.loadConst.ownsCanonical W || Opcode.readMemory.ownsCanonical W ||
    Opcode.writeMemory.ownsCanonical W || Opcode.bitreverse.ownsCanonical W

/-- The bits a row's format assigns to a field (R62 to R65): `W[47:5]`, `W[34:0]`, `W[29:0]`, `W[29:0]`. -/
def Opcode.assignedMask : Opcode → InstrWord
  | .loadConst => 0xFFFFFFFFFFE0#48
  | .readMemory => 0x0007FFFFFFFF#48
  | .writeMemory => 0x00003FFFFFFF#48
  | .bitreverse => 0x00003FFFFFFF#48

/-! ## DECODE -/

/-- The two failures of DECODE (R105). -/
inductive DecodeFailure where
  /-- The input is not exactly 6 bytes. -/
  | length
  /-- No recognised opcode at any of the three positions; and, where `STRICT_DECODE` is set, a legal word that is not
  canonical, for which the spec names no reason (DESIGN CHOICE, log entry 6). -/
  | opcode
  deriving DecidableEq, Repr

/-- The four tests of R69, widest layout first; bits the matched layout does not assign are not examined. -/
def decodeWordLenient (W : InstrWord) : Option Instr :=
  if field W 47 42 = 60 then some (.loadConst (field W 41 30) (field W 29 5))
  else if field W 34 29 = 39 then some (.readMemory (field W 28 17) (field W 16 5) (field W 4 0))
  else if field W 29 24 = 53 then some (.writeMemory (field W 23 12) (field W 11 0))
  else if field W 29 24 = 28 then some (.bitreverse (field W 23 12) (field W 11 0))
  else none

/-- The decoder under `STRICT_DECODE` (R72, D2): set, it takes canonical words only. -/
def decodeWord (strict : Bool) (W : InstrWord) : Option Instr :=
  if strict && !isCanonical W then none else decodeWordLenient W

/-- DECODE (R104): an instruction value or the named failure, on every byte string. A legal word that only
`STRICT_DECODE` rejects fails with `opcode`: R72 and D2 say `MalformedInstruction` and no reason, and R105 gives
`opcode` to words no test matches (DESIGN CHOICE, log entry 6). -/
def decode (strict : Bool) (B : List Byte) : Except DecodeFailure Instr :=
  match recordWord B with
  | none => .error .length
  | some W =>
    match decodeWord strict W with
    | none => .error .opcode
    | some i => .ok i

/-! ## ENCODE -/

/-- Each operand reduced modulo `2^width` of its field (R67, R103). -/
def Instr.truncate : Instr → Instr
  | .loadConst dest const => .loadConst (dest % 2 ^ 12) (const % 2 ^ 25)
  | .readMemory dest src offset => .readMemory (dest % 2 ^ 12) (src % 2 ^ 12) (offset % 2 ^ 5)
  | .writeMemory src dest => .writeMemory (src % 2 ^ 12) (dest % 2 ^ 12)
  | .bitreverse dest src => .bitreverse (dest % 2 ^ 12) (src % 2 ^ 12)

/-- The word of an instruction value, each operand masked to its field (R101). -/
def encodeWord : Instr → InstrWord
  | .loadConst dest const =>
      BitVec.ofNat 48 (60 * 2 ^ 42 + dest % 2 ^ 12 * 2 ^ 30 + const % 2 ^ 25 * 2 ^ 5)
  | .readMemory dest src offset =>
      BitVec.ofNat 48 (39 * 2 ^ 29 + dest % 2 ^ 12 * 2 ^ 17 + src % 2 ^ 12 * 2 ^ 5 + offset % 2 ^ 5)
  | .writeMemory src dest => BitVec.ofNat 48 (53 * 2 ^ 24 + src % 2 ^ 12 * 2 ^ 12 + dest % 2 ^ 12)
  | .bitreverse dest src => BitVec.ofNat 48 (28 * 2 ^ 24 + dest % 2 ^ 12 * 2 ^ 12 + src % 2 ^ 12)

/-- ENCODE (R101): the six bytes of an instruction value. -/
def encode (i : Instr) : List Byte := recordBytes (encodeWord i)

/-- The failure of ENCODE on a raw operand list (R102, R173). -/
structure ArityError where
  opcode : Opcode
  expected : Nat
  got : Nat
  deriving DecidableEq, Repr

/-- The instruction value of a raw form, an opcode with an operand list (R100); none where the length is wrong. -/
def Opcode.build : Opcode → List Nat → Option Instr
  | .loadConst, [dest, const] => some (.loadConst dest const)
  | .readMemory, [dest, src, offset] => some (.readMemory dest src offset)
  | .writeMemory, [src, dest] => some (.writeMemory src dest)
  | .bitreverse, [dest, src] => some (.bitreverse dest src)
  | _, _ => none

/-- ENCODE of the raw form (R102): fails only for an operand list of the wrong length. -/
def encodeRaw (o : Opcode) (operands : List Nat) : Except ArityError (List Byte) :=
  match o.build operands with
  | some i => .ok (encode i)
  | none => .error ⟨o, o.arity, operands.length⟩

/-! ## The host's table word -/

/-- The record of the instruction whose bits are `w`, as spec/opcode_table.json numbers them: its word is `W`, bit 0
the least significant, and bits from `nbits` up are 0; no record where `nbits` is above 48 (log entry 18). -/
def tableRecord (nbits w : Nat) : Option (List Byte) :=
  if nbits ≤ 48 then some (recordBytes (BitVec.ofNat 48 (w % 2 ^ nbits))) else none

/-- The instruction this hardware's decoder reads from a table word. -/
def decodeTableWord (nbits w : Nat) : Option Instr :=
  match tableRecord nbits w with
  | none => none
  | some B =>
    match decode hw.strictDecode B with
    | .ok i => some i
    | .error _ => none

end Sys2Proof
end

