-- ==== Sys2Proof/Machine/State.lean ====
section
/-! DEFINITION. The machine's state as plain data (spec/10_state.md), its error values and refusals, and the state
right after reset (R33). -/

namespace Sys2Proof.Machine

/-- The controller phase (R28). -/
inductive Phase where
  /-- Reset done, no program loaded. -/
  | empty
  /-- A program is in `P`, `pc = 0`, nothing executed yet. -/
  | loaded
  /-- Inside a RUN, or between STEPs of a program not yet finished. -/
  | running
  /-- `pc = N`, the program ran to its end. -/
  | halted
  /-- A fatal error ended a LOAD or a step; only RESET leaves it. -/
  | faulted
  deriving DecidableEq, Repr

/-- The error values the fault record can hold (R29, R170). The spec gives the state each leaves, so the machine
goes to that state: no step answers `Outcome.fault` (log entry 9). -/
inductive Fault where
  /-- Raised by LOAD at the first chunk that does not decode (R151, R153). Safe: it is the spec's own effect. -/
  | malformedInstruction (index : Nat) (reason : DecodeFailure)
  /-- Raised by an access of the instruction at index `pc` to an address at or above `MEM_SIZE` (R52, R172).
  Safe: it is the spec's own effect. -/
  | memoryFault (pc address : Nat)
  deriving DecidableEq, Repr

/-- Why the machine takes no step. -/
inductive Refusal where
  /-- Raised by an arm of `exec` whose instruction has no meaning yet; no arm does so. Safe: nothing is claimed. -/
  | notModelled (mnemonic : String)
  /-- Raised by STEP in a phase that does not accept it: the spec's result `Refused` (R150, R165), which changes no
  state. Safe: the spec refuses it too. -/
  | notAccepted (phase : Phase)
  deriving DecidableEq, Repr

/-- The cell array as (address, value) pairs, addresses strictly rising, none listed with the value an unlisted
address reads as (log entry 1: the unit is the cell, not the byte). -/
abbrev Memory := List (Nat × Cell)

/-- The whole state of the block (spec/10_state.md): the program length `N` is `prog.length` (log entry 14). -/
structure State where
  /-- `M`, the cell array (R20). -/
  mem : Memory
  /-- `P`, the program store, decoded instructions (R27). -/
  prog : List Instr
  /-- The zero-based index of the next instruction (R24). -/
  pc : Nat
  /-- The controller phase (R28). -/
  phase : Phase
  /-- The fault record (R29). -/
  fault : Option Fault
  deriving DecidableEq, Repr

/-- The machine right after RESET (R33, R190): every cell reads as `MEM_INIT`, so memory lists nothing. -/
def State.reset : State where
  mem := []
  prog := []
  pc := 0
  phase := .empty
  fault := none

end Sys2Proof.Machine
end

