-- ==== Sys2Proof/Machine/Ops.lean ====
section
/-! DEFINITION. The named operations over the cell array and the state: raw reads and writes in canonical form, the
checked accesses MemRead and MemWrite (R13, R52), `pc + 1`, taking a MemoryFault (R177), and how an instruction ends
(R126). -/

namespace Sys2Proof.Machine

/-! ## The cell array -/

/-- The listed value of an address, or `d` where it is not listed. -/
def Memory.find (d : Cell) (a : Nat) : Memory → Cell
  | [] => d
  | e :: m => if e.1 = a then e.2 else Memory.find d a m

/-- `M[a]` (R13): an unlisted cell holds `MEM_INIT(a)` (R33). -/
def Memory.read (c : Config) (m : Memory) (a : Nat) : Cell := Memory.find (c.memInit a) a m

/-- List `a` with value `v`, in address order, in place of an entry it may have. -/
def Memory.insert (a : Nat) (v : Cell) : Memory → Memory
  | [] => [(a, v)]
  | e :: m =>
    if a < e.1 then (a, v) :: e :: m
    else if e.1 = a then (a, v) :: m
    else e :: Memory.insert a v m

/-- Unlist `a`. -/
def Memory.erase (a : Nat) : Memory → Memory
  | [] => []
  | e :: m => if e.1 = a then Memory.erase a m else e :: Memory.erase a m

/-- `M[a] <- v` (R13), keeping the canonical form: writing what an unlisted cell reads as unlists it. -/
def Memory.write (c : Config) (m : Memory) (a : Nat) (v : Cell) : Memory :=
  if v = c.memInit a then Memory.erase a m else Memory.insert a v m

/-- The canonical form of the entries from address `lo` on. -/
def Memory.wfFrom (c : Config) : Nat → Memory → Bool
  | _, [] => true
  | lo, e :: m =>
    decide (lo ≤ e.1) && decide (e.1 < c.memSize) && decide (e.2 ≠ c.memInit e.1) &&
      Memory.wfFrom c (e.1 + 1) m

/-- The canonical form: addresses strictly rising and below `MEM_SIZE`, no entry equal to what an unlisted cell
reads as. -/
def Memory.wf (c : Config) (m : Memory) : Bool := Memory.wfFrom c 0 m

/-- `M[a]` of a state. -/
def State.cell (c : Config) (s : State) (a : Nat) : Cell := Memory.read c s.mem a

/-! ## Checked accesses -/

/-- The result of an access sequence: a value, or the first invalid address, which `MemoryFault` reports (R13,
R126). -/
abbrev Access := Except Nat

/-- `MemRead(a, 1)` (R13): raises `MemoryFault(a)` when `a >= MEM_SIZE` (R52). -/
def memRead (c : Config) (a : Nat) (s : State) : Access Cell :=
  if a < c.memSize then .ok (s.cell c a) else .error a

/-- `MemWrite(a, 1, v)` (R13): raises `MemoryFault(a)` when `a >= MEM_SIZE` (R52). -/
def memWrite (c : Config) (a : Nat) (v : Cell) (s : State) : Access State :=
  if a < c.memSize then .ok { s with mem := Memory.write c s.mem a v } else .error a

/-! ## How an instruction ends -/

/-- `pc <- pc + 1` (R25). -/
def State.advance (s : State) : State := { s with pc := s.pc + 1 }

/-- Taking a MemoryFault (R177): phase Faulted and the fault record; `pc` keeps the index of the faulting
instruction, no cell is written, nothing else is saved. -/
def State.takeMemoryFault (a : Nat) (s : State) : State :=
  { s with phase := .faulted, fault := some (.memoryFault s.pc a) }

/-- The end of an instruction started in `s` (R126): its accesses done, `pc` advances; an access out of range, and
the MemoryFault is taken in `s` itself, so nothing of the instruction takes effect. -/
def complete (s : State) : Access State → Host.Outcome State Fault Refusal
  | .ok t => .next t.advance
  | .error a => .next (s.takeMemoryFault a)

end Sys2Proof.Machine
end

