-- ==== Sys2Proof/Machine/Operands.lean ====
section
/-! DEFINITION. The operand forms (R67): a direct cell address, the cell-indirect address with an unscaled 5-bit
offset (R122, R123), the zero-extended constant (R120). -/

namespace Sys2Proof.Machine

/-- `zext_32(const)` (R13, R120). -/
def constCell (const : Nat) : Cell := BitVec.ofNat 32 const

/-- `ea <- base + offset` on natural numbers, never wrapped or reduced (R53, R122). -/
def effectiveAddress (base : Cell) (offset : Nat) : Nat := base.toNat + offset

/-- The direct operand: the cell the field names. -/
def directCell (c : Config) (src : Nat) (s : State) : Access Cell := memRead c src s

/-- The indirect operand (R122): `src` names the cell that holds the base address, which is checked first (R126). -/
def indirectCell (c : Config) (src offset : Nat) (s : State) : Access Cell :=
  match memRead c src s with
  | .ok base => memRead c (effectiveAddress base offset) s
  | .error a => .error a

/-- Write the destination cell with the value of a source operand; a source that faults is reported first (R126,
D7). -/
def writeDest (c : Config) (dest : Nat) (v : Access Cell) (s : State) : Access State :=
  match v with
  | .ok x => memWrite c dest x s
  | .error a => .error a

end Sys2Proof.Machine
end

