-- ==== Sys2Proof/Machine/BitReverse.lean ====
section
/-! DEFINITION. The 32-bit bit-reversal datapath (R108) and the instruction BITREVERSE (spec/42_bitreverse.md). -/

namespace Sys2Proof.Machine

/-- The reversal of the low `n` bits of `x`: bit 0 goes to bit `n - 1`, and so on (R108). -/
def reverseBits : Nat → Nat → Nat
  | 0, _ => 0
  | n + 1, x => x % 2 * 2 ^ n + reverseBits n (x / 2)

/-- BITREV32 (R108): the operand is reduced to 32 bits, then its 32 bits are reversed end to end. -/
def bitRev32 (v : Nat) : Cell := BitVec.ofNat 32 (reverseBits 32 (v % 2 ^ 32))

/-- The reversed value of a source operand. -/
def reversedCell (v : Access Cell) : Access Cell :=
  match v with
  | .ok x => .ok (bitRev32 x.toNat)
  | .error a => .error a

/-- `BITREVERSE(dest, src)` (R140): `M[dest] <- BITREV32(M[src])`. -/
def bitreverse (c : Config) (dest src : Nat) (s : State) : Host.Outcome State Fault Refusal :=
  complete s (writeDest c dest (reversedCell (directCell c src s)) s)

/-- BITREVERSE on this hardware. -/
def execBitreverse (dest src : Nat) (s : State) : Host.Outcome State Fault Refusal :=
  bitreverse hw dest src s

end Sys2Proof.Machine
end

