-- ==== Sys2Proof/Machine/DataMovement.lean ====
section
/-! DEFINITION. LOAD_CONST, READ_MEMORY, WRITE_MEMORY (spec/41_data_movement.md), first for any parameters, then
on this hardware. -/

namespace Sys2Proof.Machine

/-- `LOAD_CONST(dest, const)` (R120): `M[dest] <- zext_32(const)`. -/
def loadConst (c : Config) (dest const : Nat) (s : State) : Host.Outcome State Fault Refusal :=
  complete s (memWrite c dest (constCell const) s)

/-- `READ_MEMORY(dest, src, offset)` (R122): `M[dest] <- M[M[src] + offset]`, checks in the order `src`, `ea`,
`dest` (R126). -/
def readMemory (c : Config) (dest src offset : Nat) (s : State) : Host.Outcome State Fault Refusal :=
  complete s (writeDest c dest (indirectCell c src offset s) s)

/-- `WRITE_MEMORY(src, dest)` (R125): `M[dest] <- M[src]`. -/
def writeMemory (c : Config) (src dest : Nat) (s : State) : Host.Outcome State Fault Refusal :=
  complete s (writeDest c dest (directCell c src s) s)

/-- LOAD_CONST on this hardware. -/
def execLoadConst (dest const : Nat) (s : State) : Host.Outcome State Fault Refusal :=
  loadConst hw dest const s

/-- READ_MEMORY on this hardware. -/
def execReadMemory (dest src offset : Nat) (s : State) : Host.Outcome State Fault Refusal :=
  readMemory hw dest src offset s

/-- WRITE_MEMORY on this hardware. -/
def execWriteMemory (src dest : Nat) (s : State) : Host.Outcome State Fault Refusal :=
  writeMemory hw src dest s

end Sys2Proof.Machine
end

