-- ==== Sys2Proof/Machine/Flags.lean ====
section
/-! DEFINITION. The hardware has no flags, condition codes or predicates (R30): there is no flag computation. Its
only status is the controller phase, and what that decides is which transactions are accepted (R150). -/

namespace Sys2Proof.Machine

/-- STEP and RUN are accepted in Loaded and Running (R150, R156, R159). -/
def Phase.acceptsStep : Phase → Bool
  | .loaded | .running => true
  | .empty | .halted | .faulted => false

/-- LOAD is accepted in Empty, Loaded and Halted (R150, R151; D17). -/
def Phase.acceptsLoad : Phase → Bool
  | .empty | .loaded | .halted => true
  | .running | .faulted => false

/-- DUMP is accepted in every phase but Faulted (R150, R163; D12). -/
def Phase.acceptsDump : Phase → Bool
  | .empty | .loaded | .running | .halted => true
  | .faulted => false

end Sys2Proof.Machine
end

