-- ==== Sys2Proof/Machine/Controller.lean ====
section
/-! DEFINITION. The controller's transactions RESET, LOAD, STEP, RUN and DUMP and the `execute` command
(spec/43_controller.md), over any parameters and any execute stage. -/

namespace Sys2Proof.Machine

/-- The execute stage (R157) for any parameters; at `hw` it is `exec`. -/
def execWith (c : Config) (i : Instr) (s : State) : Host.Outcome State Fault Refusal :=
  match i with
  | .loadConst dest const => loadConst c dest const s
  | .readMemory dest src offset => readMemory c dest src offset s
  | .writeMemory src dest => writeMemory c src dest s
  | .bitreverse dest src => bitreverse c dest src s

/-! ## What the host asks and is answered -/

/-- The transactions (R11). -/
inductive Request where
  | reset
  | load (blob : List Byte)
  | step
  | run
  | dump (first last : Nat)
  deriving DecidableEq, Repr

/-- The result of a transaction. -/
inductive Response where
  /-- The transaction succeeded. -/
  | success
  /-- It ended with an error value (R170). -/
  | error (e : Fault)
  /-- DUMP's sequence of (address, value) pairs (R163). -/
  | snapshot (cells : List (Nat × Cell))
  /-- DUMP's range failure (R164, R174). -/
  | dumpRangeError (first last : Nat)
  /-- The phase does not accept the transaction (R165). -/
  | refused
  deriving DecidableEq, Repr

/-! ## LOAD -/

/-- Cut a blob into 6-byte records and decode each, in increasing index order from `index`; the first that fails
ends it with its index and reason (R151, R153). Fewer than 6 bytes left over are dropped (R152). -/
def decodeRecords (strict : Bool) (index : Nat) : List Byte → Except (Nat × DecodeFailure) (List Instr)
  | b0 :: b1 :: b2 :: b3 :: b4 :: b5 :: rest =>
    match decode strict [b0, b1, b2, b3, b4, b5] with
    | .error r => .error (index, r)
    | .ok i =>
      match decodeRecords strict (index + 1) rest with
      | .error e => .error e
      | .ok is => .ok (i :: is)
  | _ => .ok []

/-- The effect of a LOAD that succeeds (R151): never on `M` (R154). -/
def State.install (P : List Instr) (s : State) : State :=
  { s with prog := P, pc := 0, phase := .loaded, fault := none }

/-- The effect of a LOAD that fails (R151, R153). -/
def State.failLoad (index : Nat) (reason : DecodeFailure) (s : State) : State :=
  { s with prog := [], pc := 0, phase := .faulted, fault := some (.malformedInstruction index reason) }

/-- LOAD (R151). A program that does not fit the program store is refused (D10; never so on this hardware). -/
def load (c : Config) (blob : List Byte) (s : State) : State × Response :=
  if s.phase.acceptsLoad && c.holds (blob.length / 6) then
    match decodeRecords c.strictDecode 0 blob with
    | .ok P => (s.install P, .success)
    | .error (index, reason) => (s.failLoad index reason, .error (.malformedInstruction index reason))
  else (s, .refused)

/-- `s` with one table record loaded as the whole program, in whatever phase it was (log entry 12). -/
def State.placeRecord (record : Option (List Byte)) (s : State) : State :=
  match record with
  | none => s.failLoad 0 .length
  | some B =>
    match decode hw.strictDecode B with
    | .ok i => s.install [i]
    | .error r => s.failLoad 0 r

/-! ## STEP and RUN -/

/-- `phase <- Running` (R156). -/
def State.enterRunning (s : State) : State := { s with phase := .running }

/-- The end of a STEP (R156, R158): `Halted` when `pc = N`, unless the instruction faulted. -/
def State.haltAtEnd (s : State) : State :=
  if s.phase = .faulted then s else if s.pc = s.prog.length then { s with phase := .halted } else s

/-- STEP (R156) over an execute stage: fetch `P[pc]`, execute it, halt at the end of the program. -/
def stepVia (ex : Instr → State → Host.Outcome State Fault Refusal) (s : State) :
    Host.Outcome State Fault Refusal :=
  if s.phase.acceptsStep then
    match s.prog[s.pc]? with
    | none => .next s.enterRunning.haltAtEnd
    | some i =>
      match ex i s.enterRunning with
      | .next t => .next t.haltAtEnd
      | .fault f => .fault f
      | .refused r => .refused r
  else .refused (.notAccepted s.phase)

/-- What a STEP that ended in `s` returns (R156): the error of a fault taken, else success. -/
def State.stepResponse (s : State) : Response :=
  match s.phase, s.fault with
  | .faulted, some e => .error e
  | _, _ => .success

/-- STEP as a transaction: the state and the result; a refused STEP changes no state (R165). -/
def stepTransaction (ex : Instr → State → Host.Outcome State Fault Refusal) (s : State) : State × Response :=
  match stepVia ex s with
  | .next t => (t, t.stepResponse)
  | .fault e => (s, .error e)
  | .refused _ => (s, .refused)

/-- At most `n + 1` STEPs, until the phase is no longer Loaded or Running (R159). -/
def runSteps (ex : Instr → State → Host.Outcome State Fault Refusal) : Nat → State → State × Response
  | 0, s => stepTransaction ex s
  | n + 1, s =>
    if (stepTransaction ex s).1.phase.acceptsStep then runSteps ex n (stepTransaction ex s).1
    else stepTransaction ex s

/-- RUN (R159); `N - pc` instruction executions are the most it can make (R160, log entry 15). -/
def run (ex : Instr → State → Host.Outcome State Fault Refusal) (s : State) : State × Response :=
  if s.phase.acceptsStep then runSteps ex (s.prog.length - s.pc) s else (s, .refused)

/-! ## DUMP -/

/-- DUMP's range is valid: `first <= last < MEM_SIZE` (R163, D12). -/
def dumpRangeOk (c : Config) (first last : Nat) : Bool :=
  decide (first ≤ last) && decide (first < c.memSize) && decide (last < c.memSize)

/-- DUMP (R163, R164): reads cells `first` to `last` in order and changes no state. -/
def dump (c : Config) (first last : Nat) (s : State) : Response :=
  if s.phase.acceptsDump then
    if dumpRangeOk c first last then
      .snapshot ((List.range' first (last + 1 - first)).map fun a => (a, s.cell c a))
    else .dumpRangeError first last
  else .refused

/-! ## All transactions, and the command -/

/-- One transaction (R11, R150): the state after it and its result. -/
def transactVia (c : Config) (ex : Instr → State → Host.Outcome State Fault Refusal) :
    Request → State → State × Response
  | .reset, _ => (State.reset, .success)
  | .load blob, s => load c blob s
  | .step, s => stepTransaction ex s
  | .run, s => run ex s
  | .dump first last, s => (s, dump c first last s)

/-- Go on with the next transaction only where the one before it succeeded (R166). -/
def afterSuccess (p : State × Response) (k : State → State × Response) : State × Response :=
  if p.2 = .success then k p.1 else p

/-- `execute` (R166): RESET; LOAD; RUN; DUMP. Its snapshot is handed out only if all four succeeded; any other
response is the `execution_error` (R178). -/
def executeVia (c : Config) (ex : Instr → State → Host.Outcome State Fault Refusal) (blob : List Byte)
    (first last : Nat) (s : State) : State × Response :=
  afterSuccess (transactVia c ex .reset s) fun s1 =>
    afterSuccess (transactVia c ex (.load blob) s1) fun s2 =>
      afterSuccess (transactVia c ex .run s2) fun s3 =>
        transactVia c ex (.dump first last) s3

end Sys2Proof.Machine
end

