-- ==== Sys2Proof/Machine/Dispatch.lean ====
section
/-! DEFINITION. The execute stage (R157): exactly one rule for each of the four constructors. -/

namespace Sys2Proof.Machine

def exec (i : Instr) (s : State) : Host.Outcome State Fault Refusal :=
  match i with
  | .loadConst dest const => Sys2Proof.Machine.execLoadConst dest const s
  | .readMemory dest src offset => Sys2Proof.Machine.execReadMemory dest src offset s
  | .writeMemory src dest => Sys2Proof.Machine.execWriteMemory src dest s
  | .bitreverse dest src => Sys2Proof.Machine.execBitreverse dest src s

end Sys2Proof.Machine
end

