-- ==== Sys2Proof/Machine/Step.lean ====
section
/-! DEFINITION. The machine's one step: the STEP transaction (R156) over this hardware's execute stage; and the
placing of one instruction where the next step fetches it. -/

namespace Sys2Proof.Machine

/-- STEP (R156). -/
def step (s : State) : Host.Outcome State Fault Refusal := stepVia exec s

/-- `s` with the instruction whose bits are `w` loaded as the program (log entries 12 and 18). -/
def State.withFetchWord (s : State) (nbits w : Nat) : State := s.placeRecord (tableRecord nbits w)

end Sys2Proof.Machine
end

