-- ==== Sys2Proof/Machine/Assembler.lean ====
section
/-! DEFINITION. The assembler at the block's boundary (R3; spec/30_encoding.md R80 to R89): one pass over the lines
of a source text, to the blob, the trace and the label table, or the first line's syntax error. -/

namespace Sys2Proof.Machine

/-- A piece of source text. -/
abbrev Text := List Char

/-! ## Cutting text -/

/-- A blank: space, tab, carriage return, line feed, vertical tab or form feed (DESIGN CHOICE, log entry 16). -/
def isBlank (x : Char) : Bool :=
  x == ' ' || x == '\t' || x == '\r' || x == '\n' || x == Char.ofNat 11 || x == Char.ofNat 12

/-- Cut a text at every character of the class `p`, which is dropped: one piece more than there are cuts. -/
def splitAt (p : Char → Bool) : Text → List Text
  | [] => [[]]
  | x :: xs =>
    if p x then [] :: splitAt p xs
    else
      match splitAt p xs with
      | [] => [[x]]
      | y :: ys => (x :: y) :: ys

/-- A text without its leading blanks. -/
def trimLeft : Text → Text
  | [] => []
  | x :: xs => if isBlank x then trimLeft xs else x :: xs

/-- A text without its surrounding blanks. -/
def trim (t : Text) : Text := (trimLeft (trimLeft t).reverse).reverse

/-- The blank-delimited tokens of a text. -/
def tokens (t : Text) : List Text := (splitAt isBlank t).filter (fun w => !w.isEmpty)

/-- Tokens joined with one space between them (R83). -/
def joinSpace : List Text → Text
  | [] => []
  | [w] => w
  | w :: ws => w ++ ' ' :: joinSpace ws

/-- The text before the first `:` and the text after it; nothing where there is no `:` (R82). -/
def cutColon : Text → Option (Text × Text)
  | [] => none
  | x :: xs =>
    if x == ':' then some ([], xs)
    else
      match cutColon xs with
      | none => none
      | some (l, r) => some (x :: l, r)

/-! ## Mnemonics and operands -/

/-- The ASCII capital of a letter: mnemonics are normalized upper-case (R80). -/
def upper (x : Char) : Char :=
  if 97 ≤ x.toNat && x.toNat ≤ 122 then Char.ofNat (x.toNat - 32) else x

/-- The opcode of a normalized mnemonic (R84): these four spellings and no other. -/
def opcodeOf (m : Text) : Option Opcode :=
  if m = ['L', 'O', 'A', 'D'] then some .loadConst
  else if m = ['R', 'E', 'A', 'D'] then some .readMemory
  else if m = ['W', 'R', 'I', 'T', 'E'] then some .writeMemory
  else if m = ['B', 'I', 'T', 'R', 'E', 'V', 'E', 'R', 'S', 'E'] then some .bitreverse
  else none

/-- The value of a decimal digit. -/
def decDigit (x : Char) : Option Nat :=
  if 48 ≤ x.toNat && x.toNat ≤ 57 then some (x.toNat - 48) else none

/-- The value of a hexadecimal digit, of either case (R86). -/
def hexDigit (x : Char) : Option Nat :=
  if 48 ≤ x.toNat && x.toNat ≤ 57 then some (x.toNat - 48)
  else if 65 ≤ x.toNat && x.toNat ≤ 70 then some (x.toNat - 55)
  else if 97 ≤ x.toNat && x.toNat ≤ 102 then some (x.toNat - 87)
  else none

/-- The number a string of digits spells after the value `acc` of those before it; none on any other character. -/
def digitsFrom (base : Nat) (digit : Char → Option Nat) (acc : Nat) : Text → Option Nat
  | [] => some acc
  | x :: xs =>
    match digit x with
    | none => none
    | some d => digitsFrom base digit (acc * base + d) xs

/-- A non-empty string of digits. -/
def number (base : Nat) (digit : Char → Option Nat) : Text → Option Nat
  | [] => none
  | t => digitsFrom base digit 0 t

/-- An unsigned integer literal (R86, D14): decimal digits, or `0x` or `0X` and hexadecimal digits. -/
def parseOperand : Text → Option Nat
  | '0' :: 'x' :: t => number 16 hexDigit t
  | '0' :: 'X' :: t => number 16 hexDigit t
  | t => number 10 decDigit t

/-- The values of all operands; none where one is not an integer. -/
def parseOperands : List Text → Option (List Nat)
  | [] => some []
  | t :: ts =>
    match parseOperand t, parseOperands ts with
    | some n, some ns => some (n :: ns)
    | _, _ => none

/-- Whether an operand count is right for an opcode: READ takes 2 or 3, every other its arity (R85). -/
def countOk (o : Opcode) (n : Nat) : Bool :=
  decide (n = o.arity) || (o == .readMemory && decide (n = 2))

/-- The operand list ENCODE sees: READ's omitted third operand is 0 (R85, R102). -/
def fillOffset : Opcode → List Nat → List Nat
  | .readMemory, [dest, src] => [dest, src, 0]
  | _, ns => ns

/-! ## Lines -/

/-- The underlying cause of a syntax error (R87; the two label causes are D15's). -/
inductive SyntaxCause where
  | unknownMnemonic
  | operandCount
  | nonIntegerOperand
  | emptyLabel
  | duplicateLabel
  deriving DecidableEq, Repr

/-- `SyntaxError` (R87, R175): the 1-based line and the cause. -/
structure SyntaxError where
  line : Nat
  cause : SyntaxCause
  deriving DecidableEq, Repr

/-- An instruction line, assembled: its normalized mnemonic, its operand strings, its instruction value. -/
structure AsmInstr where
  mnemonic : Text
  operands : List Text
  instr : Instr
  deriving DecidableEq, Repr

/-- A trace record (R89), its bytes as values: their rendering is not specified. -/
structure TraceRecord where
  line : Nat
  command : Text
  operands : List Text
  bytes : List Byte
  deriving DecidableEq, Repr

/-- What the assembler has accumulated: the instructions and the blob in instruction order, the trace, the labels
with the instruction index each is bound to (R82, R89). -/
structure AsmOutput where
  instrs : List Instr
  blob : List Byte
  trace : List TraceRecord
  labels : List (Text × Nat)
  deriving DecidableEq, Repr

/-- The operand list of an instruction line (R83): the tokens after the mnemonic, joined, split at every `,`, each
piece trimmed. -/
def operandTexts (ws : List Text) : List Text := (splitAt (fun x => x == ',') (joinSpace ws)).map trim

/-- The instruction value of a mnemonic and its operand strings (R84 to R87). Where a line has several causes the
mnemonic's is reported first, then the count's, then a non-integer operand's: R87 and R175 give no order (DESIGN
CHOICE, log entry 25). -/
def assembleOperands (m : Text) (ops : List Text) : Except SyntaxCause Instr :=
  match opcodeOf m with
  | none => .error .unknownMnemonic
  | some o =>
    if countOk o ops.length then
      match parseOperands ops with
      | none => .error .nonIntegerOperand
      | some ns =>
        match o.build (fillOffset o ns) with
        | none => .error .operandCount
        | some i => .ok i
    else .error .operandCount

/-- An instruction line (R80 step 3, R83); a blank one emits nothing. -/
def assembleInstr (t : Text) : Except SyntaxCause (Option AsmInstr) :=
  match tokens t with
  | [] => .ok none
  | w :: ws =>
    match assembleOperands (w.map upper) (operandTexts ws) with
    | .error e => .error e
    | .ok i => .ok (some ⟨w.map upper, operandTexts ws, i⟩)

/-- The output with one instruction line's record and trace record added (R88, R89). -/
def AsmOutput.emit (out : AsmOutput) (line : Nat) : Option AsmInstr → AsmOutput
  | none => out
  | some a =>
    { out with
      instrs := out.instrs ++ [a.instr]
      blob := out.blob ++ encode a.instr
      trace := out.trace ++ [⟨line, a.mnemonic, a.operands, encode a.instr⟩] }

/-- The instruction part of a line, added to the output. -/
def assembleRest (line : Nat) (t : Text) (out : AsmOutput) : Except SyntaxError AsmOutput :=
  match assembleInstr t with
  | .error e => .error ⟨line, e⟩
  | .ok a => .ok (out.emit line a)

/-- Bind a label to the number of instructions emitted so far; write-once, not empty (R82, D15). -/
def AsmOutput.bind (out : AsmOutput) (label : Text) : Except SyntaxCause AsmOutput :=
  if label = [] then .error .emptyLabel
  else if out.labels.any (fun e => e.1 == label) then .error .duplicateLabel
  else .ok { out with labels := out.labels ++ [(label, out.instrs.length)] }

/-- A line is skipped: blank, or its first non-blank character is `;` (R80 step 1, R81). -/
def isSkipped (t : Text) : Bool :=
  match trimLeft t with
  | [] => true
  | x :: _ => x == ';'

/-- One source line, the first that applies of R80's three cases. A label that is refused is reported before the
rest of its line is looked at (log entry 25). -/
def assembleLine (line : Nat) (t : Text) (out : AsmOutput) : Except SyntaxError AsmOutput :=
  if isSkipped t then .ok out
  else
    match cutColon t with
    | none => assembleRest line t out
    | some (label, rest) =>
      match out.bind (trim label) with
      | .error e => .error ⟨line, e⟩
      | .ok out' => assembleRest line rest out'

/-- The lines in order, numbered from `line`; the first error ends it (R87). -/
def assembleLines (line : Nat) : List Text → AsmOutput → Except SyntaxError AsmOutput
  | [], out => .ok out
  | t :: ts, out =>
    match assembleLine line t out with
    | .error e => .error e
    | .ok out' => assembleLines (line + 1) ts out'

/-- `assemble` (R80 to R89, R166): all or nothing. -/
def assemble (source : Text) : Except SyntaxError AsmOutput :=
  assembleLines 1 (splitAt (fun x => x == '\n') source) ⟨[], [], [], []⟩

end Sys2Proof.Machine
end

