-- ==== Sys2Proof/Machine/Transactions.lean ====
section
/-! DEFINITION. The host's transactions and the `execute` command on this hardware. -/

namespace Sys2Proof.Machine

/-- One transaction on this hardware (R11, R150). -/
def transact (r : Request) (s : State) : State × Response := transactVia hw exec r s

/-- The `execute` command on this hardware (R166). -/
def execute (blob : List Byte) (first last : Nat) (s : State) : State × Response :=
  executeVia hw exec blob first last s

end Sys2Proof.Machine
end

