-- ==== Sys2Proof/Safety.lean ====
section
/-! DEFINITION. What claims are stated in: the machine's invariant, and the document's own semantics of a program as
assignments to a memory, against which a run is compared. -/

namespace Sys2Proof.Machine

/-- What each phase says of the other state (R24, R28, R29, R151, R156, R158, R177). -/
def State.PhaseOk (c : Config) (s : State) : Prop :=
  match s.phase with
  | .empty => s.prog = [] ∧ s.pc = 0 ∧ s.fault = none
  | .loaded => s.pc = 0 ∧ s.fault = none
  | .running => 0 < s.pc ∧ s.pc < s.prog.length ∧ s.fault = none
  | .halted => s.pc = s.prog.length ∧ s.fault = none
  | .faulted =>
    match s.fault with
    | none => False
    | some (.malformedInstruction _ reason) => s.prog = [] ∧ s.pc = 0 ∧ reason = .opcode
    | some (.memoryFault pc address) => pc = s.pc ∧ s.pc < s.prog.length ∧ c.memSize ≤ address

/-- The invariant of the machine: memory in its canonical form, only in-range instructions in the program store,
the program within the store's bound, and the phase agreeing with `pc`, the program and the fault record. -/
structure State.Inv (c : Config) (s : State) : Prop where
  memory : Memory.wf c s.mem = true
  program : ∀ i ∈ s.prog, i.WellFormed
  bounded : c.holds s.prog.length = true
  phase : s.PhaseOk c

/-- The frame of an instruction that completes (R22): no cell but `dest` changes, nor the program store, the phase
or the fault record. The program counter is said apart. -/
structure State.SameExcept (dest : Nat) (s t : State) : Prop where
  cells : ∀ a, a ≠ dest → t.cell hw a = s.cell hw a
  prog : t.prog = s.prog
  phase : t.phase = s.phase
  fault : t.fault = s.fault

/-! ## The document's semantics -/

/-- `memory[a] = v` on a memory seen as a function of the address. -/
def assign (M : Nat → Cell) (a : Nat) (v : Cell) : Nat → Cell := fun b => if b = a then v else M b

/-- The assignment §4.3 of the document gives each opcode (quoted in R120, R122, R125, R140), on a memory of `size`
cells; the computed index out of range is the error (R52). -/
def instrMeaning (size : Nat) (M : Nat → Cell) : Instr → Except Nat (Nat → Cell)
  | .loadConst dest const => .ok (assign M dest (BitVec.ofNat 32 const))
  | .readMemory dest src offset =>
    if (M src).toNat + offset < size then .ok (assign M dest (M ((M src).toNat + offset)))
    else .error ((M src).toNat + offset)
  | .writeMemory src dest => .ok (assign M dest (M src))
  | .bitreverse dest src => .ok (assign M dest (bitRev32 (M src).toNat))

/-- A straight-line program executed once from index `k` (R25, R161): the final memory, and the MemoryFault that
ended it, if one did. -/
def programMeaning (size : Nat) : Nat → List Instr → (Nat → Cell) → (Nat → Cell) × Option Fault
  | _, [], M => (M, none)
  | k, i :: is, M =>
    match instrMeaning size M i with
    | .ok M' => programMeaning size (k + 1) is M'
    | .error a => (M, some (.memoryFault k a))

end Sys2Proof.Machine
end

