-- ==== Sys2Proof/Certificates/Slice0/Obligations.lean ====
section
/-! DEFINITION. The statements for the provers. A docstring that begins with a rule of spec/ formalises that rule. One
that begins with a parenthesis rests on what it names there, which the spec marks as its own decision (D<n>) or
inference, or which this model chose (log entry <n>). -/

open Sys2Proof Sys2Proof.Machine

/-! ## Encoding -/

/-- (30_encoding, the spec's layout decision D1; log entry 5.) The records written out in R63, R64 and R65 decode to
the instructions these rules give them, under both settings of the decoder, and are what ENCODE makes of them. -/
def Obligations.SampleRecordsDecode : Prop :=
  ∀ p ∈ [([0xF0, 0x00, 0x00, 0x00, 0x05, 0x40], Instr.loadConst 0 42),
         ([0x00, 0x04, 0xE0, 0x04, 0x00, 0x20], Instr.readMemory 2 1 0),
         ([0x00, 0x00, 0x35, 0x00, 0x00, 0x01], Instr.writeMemory 0 1),
         ([0x00, 0x00, 0x1C, 0x00, 0x10, 0x00], Instr.bitreverse 1 0)],
    (∀ strict, decode strict p.1 = .ok p.2) ∧ encode p.2 = p.1

/-- R106: ENCODE then DECODE gives an in-range instruction value back, and any other with each operand reduced to
its field, under both settings of the decoder. -/
def Obligations.DecodeOfEncodeIsTruncation : Prop :=
  ∀ (strict : Bool) (i : Instr),
    decode strict (encode i) = .ok i.truncate ∧ (i.WellFormed → decode strict (encode i) = .ok i)

/-- R103: an operand wider than its field encodes as the operand reduced modulo `2^width`, and never fails. -/
def Obligations.EncodeTruncatesOperands : Prop :=
  (∀ dest const, encode (.loadConst dest const) = encode (.loadConst (dest % 4096) (const % 33554432))) ∧
  (∀ dest src offset,
    encode (.readMemory dest src offset) = encode (.readMemory (dest % 4096) (src % 4096) (offset % 32))) ∧
  (∀ src dest, encode (.writeMemory src dest) = encode (.writeMemory (src % 4096) (dest % 4096))) ∧
  (∀ dest src, encode (.bitreverse dest src) = encode (.bitreverse (dest % 4096) (src % 4096)))

/-- (R69, with the byte formulas of R63, R64 and R65; the spec's decisions D1 and D2, log entries 5 and 6.) A record
is classified by the first of the four tests that holds, widest layout first, its operands read from the bytes as
the matched format lays them out; where none holds it is malformed. -/
def Obligations.RecordsDecodeInOrder : Prop :=
  ∀ b0 b1 b2 b3 b4 b5 : Byte,
    decode false [b0, b1, b2, b3, b4, b5] =
      if b0.toNat / 4 = 60 then
        .ok (.loadConst (b0.toNat % 4 * 1024 + b1.toNat * 4 + b2.toNat / 64)
          (b2.toNat % 64 * 524288 + b3.toNat * 2048 + b4.toNat * 8 + b5.toNat / 32))
      else if b1.toNat % 8 * 8 + b2.toNat / 32 = 39 then
        .ok (.readMemory (b2.toNat % 32 * 128 + b3.toNat / 2)
          (b3.toNat % 2 * 2048 + b4.toNat * 8 + b5.toNat / 32) (b5.toNat % 32))
      else if b2.toNat % 64 = 53 then
        .ok (.writeMemory (b3.toNat * 16 + b4.toNat / 16) (b4.toNat % 16 * 256 + b5.toNat))
      else if b2.toNat % 64 = 28 then
        .ok (.bitreverse (b3.toNat * 16 + b4.toNat / 16) (b4.toNat % 16 * 256 + b5.toNat))
      else .error .opcode

/-- (R70, the spec's inference from its layouts, decision D1.) A word is decoded to an instruction only by that
instruction's code at its position, and an encoded word of a shorter layout shows no longer layout's code at that
layout's position. -/
def Obligations.EncodedWordsDoNotAlias : Prop :=
  (∀ (W : InstrWord) (i : Instr), decodeWord false W = some i →
    field W (i.opcode.shift + 5) i.opcode.shift = i.opcode.code) ∧
  (∀ dest const, field (encodeWord (.loadConst dest const)) 47 42 = 60) ∧
  (∀ dest src offset, field (encodeWord (.readMemory dest src offset)) 47 42 = 0 ∧
    field (encodeWord (.readMemory dest src offset)) 34 29 = 39) ∧
  (∀ src dest, field (encodeWord (.writeMemory src dest)) 47 42 = 0 ∧
    field (encodeWord (.writeMemory src dest)) 34 29 = 1 ∧
    field (encodeWord (.writeMemory src dest)) 29 24 = 53) ∧
  ∀ dest src, field (encodeWord (.bitreverse dest src)) 47 42 = 0 ∧
    field (encodeWord (.bitreverse dest src)) 34 29 = 0 ∧
    field (encodeWord (.bitreverse dest src)) 29 24 = 28

/-- (R72; the spec's decisions D1 and D2, log entries 5 and 6.) The mask and match pairs hold exactly of the words
that ENCODE gives back after DECODE, no two of them hold of one word, and every word ENCODE makes is canonical. -/
def Obligations.CanonicalIffReencodes : Prop :=
  (∀ W : InstrWord, isCanonical W = true ↔ ∃ i, decodeWord false W = some i ∧ encodeWord i = W) ∧
  (∀ (W : InstrWord) (o p : Opcode), o.ownsCanonical W = true → p.ownsCanonical W = true → o = p) ∧
  ∀ i : Instr, i.opcode.ownsCanonical (encodeWord i) = true

/-- (R107, the spec's inference from ENCODE and DECODE.) Re-encoding a legal word clears exactly the bits its format
does not assign; the word comes back exactly when it is canonical; DECODE is injective on canonical words, and not
on all words. -/
def Obligations.ReencodeClearsUnassignedBits : Prop :=
  (∀ (W : InstrWord) (i : Instr), decodeWord false W = some i →
    encodeWord i = W &&& i.opcode.assignedMask ∧ (encodeWord i = W ↔ isCanonical W = true)) ∧
  (∀ W V : InstrWord, isCanonical W = true → isCanonical V = true →
    decodeWord false W = decodeWord false V → W = V) ∧
  ∃ W V : InstrWord, W ≠ V ∧ decodeWord false W = decodeWord false V ∧ decodeWord false W ≠ none

/-- R105: DECODE fails with `length` exactly on a byte string that is not of 6 bytes, and with `opcode` exactly on
one of 6 bytes none of whose three positions holds a recognised code; LOAD never reports the first. -/
def Obligations.DecodeFailsExactly : Prop :=
  (∀ B : List Byte,
    (decode false B = .error .length ↔ B.length ≠ 6) ∧
    (decode false B = .error .opcode ↔ ∃ W, recordWord B = some W ∧ field W 47 42 ≠ 60 ∧
      field W 34 29 ≠ 39 ∧ field W 29 24 ≠ 53 ∧ field W 29 24 ≠ 28)) ∧
  ∀ (s : State) (blob : List Byte) (k : Nat),
    (transact (.load blob) s).2 ≠ .error (.malformedInstruction k .length)

/-- (R100.) DECODE returns only in-range instruction values, under both settings of the decoder. -/
def Obligations.DecodeReturnsInRange : Prop :=
  ∀ (strict : Bool) (B : List Byte) (i : Instr), decode strict B = .ok i → i.WellFormed

/-- (R72; the spec's decision D2, log entry 6.) The strict decoder takes exactly the canonical words, and there
agrees with the lenient one. -/
def Obligations.StrictDecodeTakesCanonical : Prop :=
  ∀ W : InstrWord,
    ((∃ i, decodeWord true W = some i) ↔ isCanonical W = true) ∧
    (isCanonical W = true → decodeWord true W = decodeWord false W)

/-- (R102; the spec's decision D16, log entry 22.) ENCODE of a raw form is ENCODE of the instruction value with the
operands in the list's order (R61, R100), and fails exactly where the operand list has the wrong length, for the
arities 2, 3, 2, 2; its error carries the opcode and both counts. -/
def Obligations.RawEncodeFailsOnlyOnArity : Prop :=
  (Opcode.arity .loadConst = 2 ∧ Opcode.arity .readMemory = 3 ∧ Opcode.arity .writeMemory = 2 ∧
    Opcode.arity .bitreverse = 2) ∧
  (∀ a b c : Nat,
    encodeRaw .loadConst [a, b] = .ok (encode (.loadConst a b)) ∧
    encodeRaw .readMemory [a, b, c] = .ok (encode (.readMemory a b c)) ∧
    encodeRaw .writeMemory [a, b] = .ok (encode (.writeMemory a b)) ∧
    encodeRaw .bitreverse [a, b] = .ok (encode (.bitreverse a b))) ∧
  ∀ (o : Opcode) (operands : List Nat),
    (operands.length = o.arity → ∃ i, o.build operands = some i ∧ i.opcode = o ∧
      encodeRaw o operands = .ok (encode i)) ∧
    (operands.length ≠ o.arity → encodeRaw o operands = .error ⟨o, o.arity, operands.length⟩)

/-! ## Bit reversal -/

/-- R108: bit `31 - k` of BITREV32 is bit `k` of the operand, which counts modulo `2^32`. -/
def Obligations.BitRevMovesEachBit : Prop :=
  ∀ v k : Nat, k < 32 → (bitRev32 v).getLsbD (31 - k) = v.testBit k

/-- (R109, whose further values the spec infers from R108.) BITREV32 is its own inverse and a bijection on cells,
preserves the number of set bits, fixes exactly the palindromes, and has the values the rule lists. -/
def Obligations.BitRevIsInvolution : Prop :=
  (∀ x : Cell, bitRev32 (bitRev32 x.toNat).toNat = x) ∧
  Function.Bijective (fun x : Cell => bitRev32 x.toNat) ∧
  (∀ x : Cell, (List.range 32).countP (fun k => (bitRev32 x.toNat).getLsbD k) =
    (List.range 32).countP (fun k => x.getLsbD k)) ∧
  (∀ x : Cell, bitRev32 x.toNat = x ↔ ∀ k < 32, x.getLsbD (31 - k) = x.getLsbD k) ∧
  ∀ p ∈ [(0, 0#32), (1, 0x80000000#32), (0x80000000, 1#32), (0xFFFFFFFF, 0xFFFFFFFF#32), (2, 0x40000000#32),
         (0x0000FFFF, 0xFFFF0000#32), (0xAAAAAAAA, 0x55555555#32), (0x01FFFFFF, 0xFFFFFF80#32),
         (42, 0x54000000#32)], bitRev32 p.1 = p.2

/-! ## The four instructions -/

/-- R120: LOAD_CONST writes the zero-extended constant, advances `pc`, and changes nothing else. -/
def Obligations.LoadConstWritesConstant : Prop :=
  ∀ (s : State) (dest const : Nat), (Instr.loadConst dest const).WellFormed →
    ∃ t, exec (.loadConst dest const) s = .next t ∧ (t.cell hw dest).toNat = const ∧
      t.pc = s.pc + 1 ∧ s.SameExcept dest t

/-- (R122; that the fault raised is a next state in phase Faulted is the spec's decisions D8 and D9, log entries 8
and 9.) READ_MEMORY copies the cell whose address is the unwrapped sum of the base cell's value and the offset,
advances `pc` and changes nothing else; where the sum is no cell's address it raises a MemoryFault with the sum. -/
def Obligations.ReadMemoryCopiesIndirectCell : Prop :=
  ∀ (s : State) (dest src offset : Nat), (Instr.readMemory dest src offset).WellFormed →
    ((s.cell hw src).toNat + offset < 4096 →
      ∃ t, exec (.readMemory dest src offset) s = .next t ∧
        t.cell hw dest = s.cell hw ((s.cell hw src).toNat + offset) ∧
        t.pc = s.pc + 1 ∧ s.SameExcept dest t) ∧
    (4096 ≤ (s.cell hw src).toNat + offset →
      ∃ t, exec (.readMemory dest src offset) s = .next t ∧ t.phase = .faulted ∧
        t.fault = some (.memoryFault s.pc ((s.cell hw src).toNat + offset)))

/-- R125: WRITE_MEMORY copies the source cell's 32 bits to the destination cell, advances `pc`, and changes nothing
else. -/
def Obligations.WriteMemoryCopiesCell : Prop :=
  ∀ (s : State) (src dest : Nat), (Instr.writeMemory src dest).WellFormed →
    ∃ t, exec (.writeMemory src dest) s = .next t ∧ t.cell hw dest = s.cell hw src ∧
      t.pc = s.pc + 1 ∧ s.SameExcept dest t

/-- R140: BITREVERSE writes the value whose bit `31 - k` is bit `k` of the source cell, advances `pc`, and changes
nothing else. -/
def Obligations.BitreverseWritesReversedCell : Prop :=
  ∀ (s : State) (dest src : Nat), (Instr.bitreverse dest src).WellFormed →
    ∃ t, exec (.bitreverse dest src) s = .next t ∧
      (∀ k < 32, (t.cell hw dest).getLsbD (31 - k) = (s.cell hw src).getLsbD k) ∧
      t.pc = s.pc + 1 ∧ s.SameExcept dest t

/-- (R125's corner case; memory's canonical form is the model's, log entry 1.) Where memory is in its canonical
form, WRITE_MEMORY of a cell onto itself changes nothing but `pc`. -/
def Obligations.SelfCopyChangesOnlyPc : Prop :=
  ∀ (s : State) (a : Nat), Memory.wf hw s.mem = true → a < 4096 →
    exec (.writeMemory a a) s = .next { s with pc := s.pc + 1 }

/-- (R141(c).) BITREVERSE in place, done twice, restores the cell. -/
def Obligations.InPlaceReversalTwiceRestores : Prop :=
  ∀ (s : State) (a : Nat), a < 4096 →
    ∃ t u, exec (.bitreverse a a) s = .next t ∧ exec (.bitreverse a a) t = .next u ∧
      u.pc = s.pc + 2 ∧ u.cell hw a = s.cell hw a ∧ s.SameExcept a u

/-- (R22; the precise fault is the spec's decision D9, log entry 9.) No instruction writes more than one cell, nor
any state but that cell and `pc` and, on a fault, `phase` and `fault`; and it ends in no other way, whatever its
operands. -/
def Obligations.InstructionWritesOneCell : Prop :=
  ∀ (i : Instr) (s : State), ∃ t, exec i s = .next t ∧ t.prog = s.prog ∧
    (∀ a, a ≠ i.dest → t.cell hw a = s.cell hw a) ∧
    ((t.pc = s.pc + 1 ∧ t.phase = s.phase ∧ t.fault = s.fault) ∨
      (∃ a, 4096 ≤ a ∧ t = { s with phase := .faulted, fault := some (.memoryFault s.pc a) }))

/-- (R126; the spec's decisions D7 and D9, log entries 9 and 11.) For every size of the array and every operand, the
first invalid address in the order source, computed address, destination is the one the MemoryFault reports, and
nothing of the instruction takes effect; this hardware's execute stage is that of the parameters `hw`. -/
def Obligations.FirstInvalidAddressIsReported : Prop :=
  (∀ (i : Instr) (s : State), exec i s = execWith hw i s) ∧
  ∀ (c : Config) (s : State) (dest src : Nat),
    (∀ const, c.memSize ≤ dest → execWith c (.loadConst dest const) s =
      .next { s with phase := .faulted, fault := some (.memoryFault s.pc dest) }) ∧
    (∀ offset, c.memSize ≤ src → execWith c (.readMemory dest src offset) s =
      .next { s with phase := .faulted, fault := some (.memoryFault s.pc src) }) ∧
    (∀ offset, src < c.memSize → c.memSize ≤ (s.cell c src).toNat + offset →
      execWith c (.readMemory dest src offset) s = .next { s with
        phase := .faulted
        fault := some (.memoryFault s.pc ((s.cell c src).toNat + offset)) }) ∧
    (∀ offset, src < c.memSize → (s.cell c src).toNat + offset < c.memSize → c.memSize ≤ dest →
      execWith c (.readMemory dest src offset) s =
        .next { s with phase := .faulted, fault := some (.memoryFault s.pc dest) }) ∧
    (∀ i, i = .writeMemory src dest ∨ i = .bitreverse dest src →
      (c.memSize ≤ src → execWith c i s =
        .next { s with phase := .faulted, fault := some (.memoryFault s.pc src) }) ∧
      (src < c.memSize → c.memSize ≤ dest → execWith c i s =
        .next { s with phase := .faulted, fault := some (.memoryFault s.pc dest) }))

/-- (R172; that the fault raised is a next state in phase Faulted is the spec's decisions D8 and D9, log entries 8
and 9.) An in-range instruction takes a MemoryFault exactly when it is a READ_MEMORY whose computed address is 4096
or more; the record carries that address and the instruction's index. -/
def Obligations.OnlyReadMemoryFaults : Prop :=
  ∀ (i : Instr) (s : State), i.WellFormed → s.phase ≠ .faulted →
    ((∃ t, exec i s = .next t ∧ t.phase = .faulted) ↔
      ∃ dest src offset, i = .readMemory dest src offset ∧ 4096 ≤ (s.cell hw src).toNat + offset) ∧
    ∀ t dest src offset, exec i s = .next t → t.phase = .faulted → i = .readMemory dest src offset →
      t.fault = some (.memoryFault s.pc ((s.cell hw src).toNat + offset))

/-- (R141(e), R121(c).) No instruction but BITREVERSE makes a cell of `2^25` or more where there was none. -/
def Obligations.OnlyBitreverseMakesLargeCells : Prop :=
  ∀ (i : Instr) (s t : State), i.WellFormed → (∀ a, (s.cell hw a).toNat < 33554432) →
    (∀ dest src, i ≠ .bitreverse dest src) → exec i s = .next t →
    ∀ a, (t.cell hw a).toNat < 33554432

/-! ## The cell array -/

/-- (The model's form of memory, log entry 1.) Equal memories are equal data: two canonical listings that read the
same at every cell are the same. -/
def Obligations.CanonicalMemoriesAgree : Prop :=
  ∀ (c : Config) (m m' : Memory), Memory.wf c m = true → Memory.wf c m' = true →
    (∀ a < c.memSize, Memory.read c m a = Memory.read c m' a) → m = m'

/-! ## STEP -/

/-- (R156; the spec's decisions D8 and D9, log entries 8, 9 and 10.) A STEP in Loaded or Running executes the
instruction at `pc` and ends Halted when `pc = N`, unless the instruction faulted; with nothing left it goes to
Halted; in any other phase it is refused. The transaction's result is the fault of a step that faulted, else
success. -/
def Obligations.StepRunsFetchedInstruction : Prop :=
  ∀ s : State,
    (∀ i t, s.phase = .loaded ∨ s.phase = .running → s.prog[s.pc]? = some i →
      exec i { s with phase := .running } = .next t →
      step s = .next (if t.phase = .faulted then t
        else if t.pc = t.prog.length then { t with phase := .halted } else t)) ∧
    (s.phase = .loaded ∨ s.phase = .running → s.pc = s.prog.length →
      step s = .next { s with phase := .halted }) ∧
    (s.phase ≠ .loaded → s.phase ≠ .running →
      step s = .refused (.notAccepted s.phase) ∧ transact .step s = (s, .refused)) ∧
    ∀ t, step s = .next t →
      (t.phase ≠ .faulted → transact .step s = (t, .success)) ∧
      ∀ f, t.phase = .faulted → t.fault = some f → transact .step s = (t, .error f)

/-- (R151, R156; the spec's decisions D8 and D9.) Where record `k` of a loaded blob decodes to an instruction, the
STEP at index `k` executes that instruction. -/
def Obligations.StepRunsLoadedRecord : Prop :=
  ∀ (s t u v : State) (blob : List Byte) (k : Nat) (i : Instr),
    transact (.load blob) s = (t, .success) → k < blob.length / 6 →
    decode hw.strictDecode ((blob.drop (6 * k)).take 6) = .ok i →
    u.prog = t.prog → u.pc = k → u.phase = .loaded ∨ u.phase = .running →
    exec i { u with phase := .running } = .next v →
    step u = .next (if v.phase = .faulted then v
      else if v.pc = v.prog.length then { v with phase := .halted } else v)

/-- (R150, R165; the spec's decision D8, log entries 9 and 10.) A step never ends the machine with a fault outcome;
it is refused exactly outside Loaded and Running. -/
def Obligations.StepRefusedExactlyOutsideRun : Prop :=
  ∀ s : State, (∀ f, step s ≠ .fault f) ∧
    ((∃ r, step s = .refused r) ↔ s.phase = .empty ∨ s.phase = .halted ∨ s.phase = .faulted)

/-- R161: the successor of the instruction at index `pc` is always index `pc + 1`; a step that faults has none. -/
def Obligations.SuccessorIsNextIndex : Prop :=
  ∀ s t : State, s.pc < s.prog.length → step s = .next t →
    t.phase ≠ .faulted → t.pc = s.pc + 1

/-- (R158; the spec's decision D8, log entry 8.) After a step of a machine with `pc` in its range the phase is
Halted exactly when `pc = N`; in phase Halted STEP and RUN are refused and change nothing, and LOAD, DUMP and RESET
are accepted. -/
def Obligations.HaltedExactlyAtEnd : Prop :=
  (∀ s t : State, s.pc ≤ s.prog.length → step s = .next t → (t.phase = .halted ↔ t.pc = t.prog.length)) ∧
  ∀ s : State, s.phase = .halted →
    transact .step s = (s, .refused) ∧ transact .run s = (s, .refused) ∧
    (∀ blob, (transact (.load blob) s).2 ≠ .refused) ∧
    (∀ first last, (transact (.dump first last) s).2 ≠ .refused) ∧ (transact .reset s).2 ≠ .refused

/-- (R177; the spec's decisions D8 and D9, log entry 9.) A step that faults writes no cell, keeps `pc` and the
program, records the fault with an address outside the array; and then no transaction but RESET does anything. -/
def Obligations.FaultsArePrecise : Prop :=
  ∀ s t : State, step s = .next t → t.phase = .faulted →
    t.mem = s.mem ∧ t.pc = s.pc ∧ t.prog = s.prog ∧
    (∃ a, 4096 ≤ a ∧ t.fault = some (.memoryFault s.pc a) ∧
      transact .step s = (t, .error (.memoryFault s.pc a))) ∧
    ∀ r, r ≠ .reset → transact r t = (t, .refused)

/-- R50: the program store is immutable after LOAD; no step, and no transaction but LOAD and RESET, changes it. -/
def Obligations.ProgramStoreIsImmutable : Prop :=
  (∀ s t : State, step s = .next t → t.prog = s.prog) ∧
  ∀ (s : State) (r : Request), r ≠ .reset → (∀ blob, r ≠ .load blob) → (transact r s).1.prog = s.prog

/-! ## LOAD, RUN, DUMP, RESET and the command -/

/-- (R151; the spec's decisions D8 and D17, log entries 8, 9 and 20.) LOAD is refused in Running and Faulted. Else,
where every whole record decodes, the program is what the records decode to, in order, with `pc` 0, phase Loaded, no
fault; where record `k` is the first that does not, its index is reported, the program is empty, `pc` 0, the phase
Faulted, the reason the opcode. Memory is as it was. -/
def Obligations.LoadDecodesWholeBlob : Prop :=
  ∀ (s : State) (blob : List Byte),
    (s.phase = .running ∨ s.phase = .faulted → transact (.load blob) s = (s, .refused)) ∧
    (s.phase = .empty ∨ s.phase = .loaded ∨ s.phase = .halted →
      ((∀ k < blob.length / 6, ∃ i, decode false ((blob.drop (6 * k)).take 6) = .ok i) →
        ∃ P : List Instr,
          transact (.load blob) s =
            ({ s with prog := P, pc := 0, phase := .loaded, fault := none }, .success) ∧
          P.length = blob.length / 6 ∧
          ∀ k i, P[k]? = some i → decode false ((blob.drop (6 * k)).take 6) = .ok i) ∧
      ∀ k reason, k < blob.length / 6 →
        decode false ((blob.drop (6 * k)).take 6) = .error reason →
        (∀ j < k, ∃ i, decode false ((blob.drop (6 * j)).take 6) = .ok i) →
        reason = .opcode ∧
        transact (.load blob) s =
          ({ s with prog := [], pc := 0, phase := .faulted, fault := some (.malformedInstruction k .opcode) },
            .error (.malformedInstruction k .opcode)))

/-- R152: up to 5 bytes after the last whole record are ignored, whatever they are; a blob of fewer than 6 bytes
loads the empty program. -/
def Obligations.LoadIgnoresPartialTail : Prop :=
  ∀ (s : State) (blob tail : List Byte), blob.length % 6 = 0 → tail.length < 6 →
    transact (.load (blob ++ tail)) s = transact (.load blob) s ∧
    (s.phase = .empty ∨ s.phase = .loaded ∨ s.phase = .halted →
      transact (.load tail) s = ({ s with prog := [], pc := 0, phase := .loaded, fault := none }, .success))

/-- (R150; the spec's decisions D8, D12 and D17, log entries 8, 19 and 20.) Which transactions each phase accepts,
and the phase they lead to, in every state with `pc` in its range. -/
def Obligations.TransactionsFollowPhaseTable : Prop :=
  ∀ s : State, s.pc ≤ s.prog.length →
    (transact .reset s).1.phase = .empty ∧
    (∀ blob, (s.phase = .running ∨ s.phase = .faulted → transact (.load blob) s = (s, .refused)) ∧
      (s.phase = .empty ∨ s.phase = .loaded ∨ s.phase = .halted →
        ((transact (.load blob) s).2 = .success ∧ (transact (.load blob) s).1.phase = .loaded) ∨
        (∃ e, (transact (.load blob) s).2 = .error e) ∧ (transact (.load blob) s).1.phase = .faulted)) ∧
    (s.phase = .loaded ∨ s.phase = .running →
      (transact .step s).2 ≠ .refused ∧ (transact .run s).2 ≠ .refused ∧
      ((transact .step s).1.phase = .running ∨ (transact .step s).1.phase = .halted ∨
        (transact .step s).1.phase = .faulted) ∧
      ((transact .run s).1.phase = .halted ∨ (transact .run s).1.phase = .faulted)) ∧
    (s.phase = .empty ∨ s.phase = .halted ∨ s.phase = .faulted →
      transact .step s = (s, .refused) ∧ transact .run s = (s, .refused)) ∧
    ∀ first last, (transact (.dump first last) s).1 = s ∧
      ((transact (.dump first last) s).2 = .refused ↔ s.phase = .faulted)

/-- (R165; the spec's decision D8, log entry 10.) A refused transaction changes no state. -/
def Obligations.RefusedChangesNothing : Prop :=
  ∀ (s : State) (r : Request), (transact r s).2 = .refused → (transact r s).1 = s

/-- (R179; the spec's decision D8, log entry 8.) No transaction but RESET does anything in phase Faulted, and RESET
discards the program, the fault record and the cells. -/
def Obligations.FaultedLeftOnlyByReset : Prop :=
  ∀ (s : State) (r : Request), s.phase = .faulted →
    (r ≠ .reset → transact r s = (s, .refused)) ∧ transact .reset s = (State.reset, .success)

/-- (R190; the spec's decisions D4 and D8, log entries 2 and 8.) RESET, from any state and for any parameters,
leaves every cell at `MEM_INIT`, no program, `pc` 0, phase Empty and no fault record. -/
def Obligations.ResetState : Prop :=
  ∀ (c : Config) (s t : State) (r : Response), transactVia c exec .reset s = (t, r) →
    (∀ a, t.cell c a = c.memInit a) ∧ t.prog = [] ∧ t.pc = 0 ∧ t.phase = .empty ∧ t.fault = none ∧
    r = .success

/-- (R163; the spec's decision D12, log entry 19.) DUMP of a valid range gives its cells in address order, one pair
each; any other range is the range error; in phase Faulted it is refused; it never changes the state. -/
def Obligations.DumpReadsRange : Prop :=
  ∀ (s : State) (first last : Nat), (transact (.dump first last) s).1 = s ∧
    (s.phase = .faulted → (transact (.dump first last) s).2 = .refused) ∧
    (s.phase ≠ .faulted → first ≤ last → last < 4096 →
      ∃ cells, (transact (.dump first last) s).2 = .snapshot cells ∧ cells.length = last - first + 1 ∧
        ∀ k, k ≤ last - first → cells[k]? = some (first + k, s.cell hw (first + k))) ∧
    (s.phase ≠ .faulted → last < first ∨ 4096 ≤ first ∨ 4096 ≤ last →
      (transact (.dump first last) s).2 = .dumpRangeError first last)

/-- (R159, R158, R160; the phases, the refusal and the one step of a program at its end are the spec's decision D8,
log entries 8 and 10, the bound on a run that faults is the spec's inference, log entry 15.) RUN is STEP repeated
until the phase is Halted or Faulted: from `pc` in its range it makes `N - pc` steps (one for a program already at
its end) if it ends Halted, at most so many if it ends Faulted, and is Running between them, `pc` one further after
each. -/
def Obligations.RunIsRepeatedStep : Prop :=
  ∀ s : State,
    (s.phase ≠ .loaded → s.phase ≠ .running → transact .run s = (s, .refused)) ∧
    (s.phase = .loaded ∨ s.phase = .running → s.pc ≤ s.prog.length →
      ∃ k, 1 ≤ k ∧ k ≤ max 1 (s.prog.length - s.pc) ∧
        Host.Core.run core k s = .next (transact .run s).1 ∧
        (∀ j, 1 ≤ j → j < k →
          ∃ t, Host.Core.run core j s = .next t ∧ t.phase = .running ∧ t.pc = s.pc + j) ∧
        ((transact .run s).1.phase = .halted ∧ k = max 1 (s.prog.length - s.pc) ∧
            (transact .run s).1.pc = s.prog.length ∧ (transact .run s).2 = .success ∨
          (transact .run s).1.phase = .faulted))

/-- (R160.) A RUN in its phases, `pc` in its range and no fault recorded, ends Halted with `pc = N` and success, or
Faulted with the recorded fault as its result. -/
def Obligations.RunTerminates : Prop :=
  ∀ s : State, s.phase = .loaded ∨ s.phase = .running → s.pc ≤ s.prog.length → s.fault = none →
    ((transact .run s).1.phase = .halted ∧ (transact .run s).1.pc = s.prog.length ∧
      (transact .run s).1.fault = none ∧ (transact .run s).2 = .success) ∨
    ((transact .run s).1.phase = .faulted ∧ (transact .run s).1.pc < s.prog.length ∧
      ∃ a, 4096 ≤ a ∧ (transact .run s).1.fault = some (.memoryFault (transact .run s).1.pc a) ∧
        (transact .run s).2 = .error (.memoryFault (transact .run s).1.pc a))

/-- (The assignments of R120, R122, R125, R140 in the order of R159; the fault is D9's, log entry 9.) A RUN of a
loaded program is the document's semantics of it: the cells it leaves are those of the assignments made in order, up
to the first computed index out of range, which is the fault it ends with. -/
def Obligations.RunComputesProgramMeaning : Prop :=
  ∀ s : State, s.phase = .loaded → s.pc = 0 → s.fault = none → (∀ i ∈ s.prog, i.WellFormed) →
    (∀ a, (transact .run s).1.cell hw a = (programMeaning 4096 0 s.prog (s.cell hw)).1 a) ∧
    (transact .run s).1.fault = (programMeaning 4096 0 s.prog (s.cell hw)).2 ∧
    ((programMeaning 4096 0 s.prog (s.cell hw)).2 = none →
      (transact .run s).1.phase = .halted ∧ (transact .run s).1.pc = s.prog.length ∧
      (transact .run s).2 = .success) ∧
    ∀ f, (programMeaning 4096 0 s.prog (s.cell hw)).2 = some f →
      (transact .run s).1.phase = .faulted ∧ (transact .run s).2 = .error f

/-- (R166, R178; `MEM_INIT` is log entry 2.) The `execute` command on the blob ENCODE makes of an in-range program,
from any state: its snapshot is that of the document's semantics from the reset cells, and a program whose semantics
faults gives no snapshot but the fault. -/
def Obligations.ExecuteEncodedProgram : Prop :=
  ∀ (P : List Instr) (first last : Nat) (s : State), (∀ i ∈ P, i.WellFormed) →
    ((programMeaning 4096 0 P hw.memInit).2 = none → first ≤ last → last < 4096 →
      (execute (P.flatMap encode) first last s).2 =
        .snapshot ((List.range' first (last + 1 - first)).map
          fun a => (a, (programMeaning 4096 0 P hw.memInit).1 a))) ∧
    ∀ f, (programMeaning 4096 0 P hw.memInit).2 = some f →
      (execute (P.flatMap encode) first last s).2 = .error f

/-- (R166, R178.) `execute` hands out a snapshot only if LOAD from reset, RUN and DUMP all succeeded, and the run
ended Halted; nothing of the state before it has any effect (R34). -/
def Obligations.SnapshotOnlyAfterSuccess : Prop :=
  ∀ (blob : List Byte) (first last : Nat) (s s' : State),
    execute blob first last s = execute blob first last s' ∧
    ∀ cells, (execute blob first last s).2 = .snapshot cells →
      (transact (.load blob) State.reset).2 = .success ∧
      (transact .run (transact (.load blob) State.reset).1).2 = .success ∧
      (transact .run (transact (.load blob) State.reset).1).1.phase = .halted ∧
      (transact (.dump first last) (transact .run (transact (.load blob) State.reset).1).1).2 = .snapshot cells

/-! ## The invariant -/

/-- (`Inv` is the model's.) The machine right after reset satisfies the invariant, for any parameters. -/
def Obligations.ResetSatisfiesInvariant : Prop := ∀ c : Config, State.reset.Inv c

/-- (`Inv` is the model's; the phases are the spec's decision D8.) Every step keeps the invariant: the canonical
form of memory (R20, R23), an in-range program (R27), and the agreement of the phase with `pc`, the program and the
fault record (R24, R28, R29). -/
def Obligations.StepKeepsInvariant : Prop :=
  ∀ s t : State, s.Inv hw → step s = .next t → t.Inv hw

/-- (`Inv` is the model's; the phases are the spec's decision D8; the reason a strict decoder records is log entry
6.) Every transaction keeps the invariant, for any parameters. -/
def Obligations.TransactionsKeepInvariant : Prop :=
  ∀ (c : Config) (s : State) (r : Request), s.Inv c → (transactVia c (execWith c) r s).1.Inv c

/-! ## The assembler -/

/-- (R89.) A program that assembles gives one 6-byte record and one trace record an instruction, in order; and its
blob loads, to the instructions reduced to their fields. -/
def Obligations.AssembledBlobLoads : Prop :=
  ∀ (source : Text) (out : AsmOutput), assemble source = .ok out →
    out.blob = out.instrs.flatMap encode ∧ out.blob.length = 6 * out.instrs.length ∧
    out.trace.map (fun r => r.bytes) = out.instrs.map encode ∧
    transact (.load out.blob) State.reset =
      ({ State.reset with prog := out.instrs.map Instr.truncate, phase := .loaded }, .success)

/-- (R84, R85; that a wrong count is the cause reported whatever the operands are is log entry 25.) READ's third
operand defaults to 0; READ takes 2 or 3 operands, the other mnemonics exactly 2, and every other count is wrong.
The instruction value of each mnemonic has the operands' values in the text's order. -/
def Obligations.ReadOffsetDefaultsToZero : Prop :=
  (∀ d s : Text, assembleOperands ['R', 'E', 'A', 'D'] [d, s] =
    assembleOperands ['R', 'E', 'A', 'D'] [d, s, ['0']]) ∧
  (∀ (x y z : Text) (a b c : Nat),
    parseOperand x = some a → parseOperand y = some b → parseOperand z = some c →
    assembleOperands ['L', 'O', 'A', 'D'] [x, y] = .ok (.loadConst a b) ∧
    assembleOperands ['R', 'E', 'A', 'D'] [x, y] = .ok (.readMemory a b 0) ∧
    assembleOperands ['R', 'E', 'A', 'D'] [x, y, z] = .ok (.readMemory a b c) ∧
    assembleOperands ['W', 'R', 'I', 'T', 'E'] [x, y] = .ok (.writeMemory a b) ∧
    assembleOperands ['B', 'I', 'T', 'R', 'E', 'V', 'E', 'R', 'S', 'E'] [x, y] = .ok (.bitreverse a b)) ∧
  ∀ (m : Text) (o : Opcode) (ops : List Text), opcodeOf m = some o →
    (ops.length = 2 ∨ (o = .readMemory ∧ ops.length = 3) → ∀ ns, parseOperands ops = some ns →
      ∃ i, o.build (fillOffset o ns) = some i ∧ i.opcode = o ∧ assembleOperands m ops = .ok i) ∧
    (ops.length ≠ 2 → ¬(o = .readMemory ∧ ops.length = 3) → assembleOperands m ops = .error .operandCount)

/-- (R87.) A syntax error names one of the source's lines, numbered from 1: the lines before it assemble, and with
it they give this error. -/
def Obligations.SyntaxErrorNamesFirstBadLine : Prop :=
  ∀ (source : Text) (e : SyntaxError), assemble source = .error e →
    1 ≤ e.line ∧ e.line ≤ (splitAt (fun x => x == '\n') source).length ∧
    (∃ out, assembleLines 1 ((splitAt (fun x => x == '\n') source).take (e.line - 1)) ⟨[], [], [], []⟩ = .ok out) ∧
    assembleLines 1 ((splitAt (fun x => x == '\n') source).take e.line) ⟨[], [], [], []⟩ = .error e
end

