-- ==== Sys2Proof/Laws/Encoding.lean ====
section
/-! SUPPORT. The record and its word are one thing; the number an encoded word is; the canonical words by number. -/

namespace Sys2Proof

/-- The bytes of a word spell the word. -/
@[simp] theorem recordWord_recordBytes (W : InstrWord) : recordWord (recordBytes W) = some W := by
  have h := W.isLt
  simp only [recordBytes, recordWord, field, Option.some.injEq]
  apply BitVec.eq_of_toNat_eq
  simp only [BitVec.toNat_ofNat]
  omega

/-- A byte string spells a word exactly when it has six bytes. -/
theorem recordWord_eq_none (B : List Byte) : recordWord B = none ↔ B.length ≠ 6 := by
  unfold recordWord
  split
  · simp
  · rename_i h
    simp only [true_iff]
    intro hl
    match B, hl with
    | [b0, b1, b2, b3, b4, b5], _ => exact h b0 b1 b2 b3 b4 b5 rfl

@[simp] theorem encode_length (i : Instr) : (encode i).length = 6 := rfl

/-- The lenient decoder examines no canonical form. -/
@[simp] theorem decodeWord_false (W : InstrWord) : decodeWord false W = decodeWordLenient W := by
  simp [decodeWord]

/-- DECODE on the bytes of a word. -/
theorem decode_recordBytes (strict : Bool) (W : InstrWord) :
    decode strict (recordBytes W) =
      match decodeWord strict W with
      | none => .error .opcode
      | some i => .ok i := by
  cases h : decodeWord strict W <;> simp [decode, h]

/-- A field never exceeds its width. -/
theorem field_lt (W : InstrWord) (hi lo : Nat) : field W hi lo < 2 ^ (hi + 1 - lo) :=
  Nat.mod_lt _ (Nat.two_pow_pos _)

/-- The number an encoded word is: no carry leaves the 48 bits. -/
def Instr.wordNat : Instr → Nat
  | .loadConst dest const => 60 * 2 ^ 42 + dest % 2 ^ 12 * 2 ^ 30 + const % 2 ^ 25 * 2 ^ 5
  | .readMemory dest src offset => 39 * 2 ^ 29 + dest % 2 ^ 12 * 2 ^ 17 + src % 2 ^ 12 * 2 ^ 5 + offset % 2 ^ 5
  | .writeMemory src dest => 53 * 2 ^ 24 + src % 2 ^ 12 * 2 ^ 12 + dest % 2 ^ 12
  | .bitreverse dest src => 28 * 2 ^ 24 + dest % 2 ^ 12 * 2 ^ 12 + src % 2 ^ 12

/-- An in-range instruction is its own truncation. -/
theorem Instr.truncate_of_wellFormed {i : Instr} (h : i.WellFormed) : i.truncate = i := by
  cases i <;> simp only [Instr.WellFormed, Instr.inRange, Bool.and_eq_true, decide_eq_true_eq, and_assoc] at h
  · exact congr (congrArg _ (Nat.mod_eq_of_lt h.1)) (Nat.mod_eq_of_lt h.2)
  · exact congr (congr (congrArg _ (Nat.mod_eq_of_lt h.1)) (Nat.mod_eq_of_lt h.2.1)) (Nat.mod_eq_of_lt h.2.2)
  · exact congr (congrArg _ (Nat.mod_eq_of_lt h.1)) (Nat.mod_eq_of_lt h.2)
  · exact congr (congrArg _ (Nat.mod_eq_of_lt h.1)) (Nat.mod_eq_of_lt h.2)

/-! ## In-range operands as bounds -/

theorem wellFormed_loadConst {dest const : Nat} :
    (Instr.loadConst dest const).WellFormed ↔ dest < 4096 ∧ const < 33554432 := by
  simp [Instr.WellFormed, Instr.inRange]

theorem wellFormed_readMemory {dest src offset : Nat} :
    (Instr.readMemory dest src offset).WellFormed ↔ dest < 4096 ∧ src < 4096 ∧ offset < 32 := by
  simp [Instr.WellFormed, Instr.inRange, and_assoc]

theorem wellFormed_writeMemory {src dest : Nat} :
    (Instr.writeMemory src dest).WellFormed ↔ src < 4096 ∧ dest < 4096 := by
  simp [Instr.WellFormed, Instr.inRange]

theorem wellFormed_bitreverse {dest src : Nat} :
    (Instr.bitreverse dest src).WellFormed ↔ dest < 4096 ∧ src < 4096 := by
  simp [Instr.WellFormed, Instr.inRange]

/-! ## Canonical words by number -/

/-- Masking with the bits from `lo` up keeps the multiple of `2^lo`. -/
theorem and_high_mask (x lo : Nat) (hlo : lo ≤ 48) (hx : x < 2 ^ 48) :
    x &&& (2 ^ 48 - 2 ^ lo) = x / 2 ^ lo * 2 ^ lo := by
  apply Nat.eq_of_testBit_eq
  intro j
  have hmask : (2 ^ 48 - 2 ^ lo).testBit j = (decide (lo ≤ j) && decide (j < 48)) := by
    have e : 2 ^ 48 - 2 ^ lo = (2 ^ (48 - lo) - 1) * 2 ^ lo := by
      rw [Nat.sub_mul, ← Nat.pow_add, Nat.one_mul, Nat.sub_add_cancel hlo]
    rw [e, Nat.testBit_mul_two_pow, Nat.testBit_two_pow_sub_one]
    by_cases h : lo ≤ j <;> simp [h]
    omega
  rw [Nat.testBit_and, Nat.testBit_mul_two_pow, Nat.testBit_div_two_pow, hmask]
  by_cases h : lo ≤ j
  · rw [Nat.sub_add_cancel h]
    by_cases h48 : j < 48
    · simp [h, h48]
    · have : x.testBit j = false :=
        Nat.testBit_lt_two_pow (Nat.lt_of_lt_of_le hx (Nat.pow_le_pow_right (by decide) (by omega)))
      simp [this]
  · simp [h]

/-- The canonical words of each opcode, as numbers (R63, R64, R65, R72). -/
theorem Opcode.ownsCanonical_iff (o : Opcode) (W : InstrWord) :
    o.ownsCanonical W = true ↔
      match o with
      | .loadConst => W.toNat / 2 ^ 42 = 60 ∧ W.toNat % 2 ^ 5 = 0
      | .readMemory => W.toNat / 2 ^ 29 = 39
      | .writeMemory => W.toNat / 2 ^ 24 = 53
      | .bitreverse => W.toNat / 2 ^ 24 = 28 := by
  have hW := W.isLt
  unfold Opcode.ownsCanonical
  rw [beq_iff_eq, ← BitVec.toNat_inj, BitVec.toNat_and]
  cases o <;> simp only [Opcode.canonicalMask, Opcode.canonicalMatch, BitVec.toNat_ofNat]
  · rw [show (0xFC000000001F : Nat) % 2 ^ 48 = (2 ^ 48 - 2 ^ 42) ||| (2 ^ 5 - 1) by decide,
      Nat.and_or_distrib_left, and_high_mask _ _ (by omega) hW, Nat.and_two_pow_sub_one_eq_mod,
      Nat.mul_comm (W.toNat / 2 ^ 42), ← Nat.two_pow_add_eq_or_of_lt (by omega)]
    omega
  · rw [show (0xFFFFE0000000 : Nat) % 2 ^ 48 = 2 ^ 48 - 2 ^ 29 by decide, and_high_mask _ _ (by omega) hW]
    omega
  · rw [show (0xFFFFFF000000 : Nat) % 2 ^ 48 = 2 ^ 48 - 2 ^ 24 by decide, and_high_mask _ _ (by omega) hW]
    omega
  · rw [show (0xFFFFFF000000 : Nat) % 2 ^ 48 = 2 ^ 48 - 2 ^ 24 by decide, and_high_mask _ _ (by omega) hW]
    omega

end Sys2Proof
end

