-- ==== Sys2Proof/Laws/Memory.lean ====
section
/-! SUPPORT. The laws of the cell array: a read after a write, and that every write keeps the canonical form. -/

namespace Sys2Proof.Machine

variable {c : Config}

@[simp] theorem Memory.find_nil (d : Cell) (a : Nat) : Memory.find d a [] = d := rfl

theorem Memory.find_cons (d : Cell) (a : Nat) (e : Nat × Cell) (m : Memory) :
    Memory.find d a (e :: m) = if e.1 = a then e.2 else Memory.find d a m := rfl

theorem Memory.find_insert (d : Cell) (a b : Nat) (v : Cell) (m : Memory) :
    Memory.find d b (Memory.insert a v m) = if b = a then v else Memory.find d b m := by
  induction m with
  | nil => simp only [Memory.insert, Memory.find_cons, Memory.find_nil, eq_comm]
  | cons e m ih =>
    simp only [Memory.insert]
    split
    · simp only [Memory.find_cons, eq_comm]
    · split <;> simp only [Memory.find_cons, ih] <;> grind

theorem Memory.find_erase (d : Cell) (a b : Nat) (m : Memory) :
    Memory.find d b (Memory.erase a m) = if b = a then d else Memory.find d b m := by
  induction m with
  | nil => simp [Memory.erase]
  | cons e m ih =>
    simp only [Memory.erase]
    split <;> simp only [Memory.find_cons, ih] <;> grind

/-- A read after a write: the value at the written address, what was there at every other. -/
theorem Memory.read_write (m : Memory) (a b : Nat) (v : Cell) :
    Memory.read c (Memory.write c m a v) b = if b = a then v else Memory.read c m b := by
  unfold Memory.read Memory.write
  split
  · rw [Memory.find_erase]; split <;> simp_all
  · rw [Memory.find_insert]

@[simp] theorem Memory.read_write_self (m : Memory) (a : Nat) (v : Cell) :
    Memory.read c (Memory.write c m a v) a = v := by rw [Memory.read_write, if_pos rfl]

theorem Memory.read_write_of_ne {a b : Nat} (h : b ≠ a) (m : Memory) (v : Cell) :
    Memory.read c (Memory.write c m a v) b = Memory.read c m b := by rw [Memory.read_write, if_neg h]

theorem Memory.wfFrom_cons (lo : Nat) (e : Nat × Cell) (m : Memory) :
    Memory.wfFrom c lo (e :: m) = true ↔
      lo ≤ e.1 ∧ e.1 < c.memSize ∧ e.2 ≠ c.memInit e.1 ∧ Memory.wfFrom c (e.1 + 1) m = true := by
  simp [Memory.wfFrom, and_assoc]

theorem Memory.wfFrom_mono {lo lo' : Nat} (h : lo ≤ lo') {m : Memory} (hm : Memory.wfFrom c lo' m = true) :
    Memory.wfFrom c lo m = true := by
  cases m with
  | nil => rfl
  | cons e m => rw [Memory.wfFrom_cons] at hm ⊢; exact ⟨by omega, hm.2⟩

theorem Memory.wfFrom_insert {a : Nat} {v : Cell} (ha : a < c.memSize) (hv : v ≠ c.memInit a) {m : Memory} :
    ∀ {lo : Nat}, lo ≤ a → Memory.wfFrom c lo m = true → Memory.wfFrom c lo (Memory.insert a v m) = true := by
  induction m with
  | nil => intro lo hlo _; exact (Memory.wfFrom_cons ..).2 ⟨hlo, ha, hv, rfl⟩
  | cons e m ih =>
    intro lo hlo hm
    obtain ⟨h1, h2, h3, h4⟩ := (Memory.wfFrom_cons ..).1 hm
    simp only [Memory.insert]
    split
    · exact (Memory.wfFrom_cons ..).2 ⟨hlo, ha, hv, (Memory.wfFrom_cons ..).2 ⟨by simp; omega, h2, h3, h4⟩⟩
    · split
      · rename_i he; exact (Memory.wfFrom_cons ..).2 ⟨hlo, ha, hv, he ▸ h4⟩
      · exact (Memory.wfFrom_cons ..).2 ⟨h1, h2, h3, ih (by omega) h4⟩

theorem Memory.wfFrom_erase {a : Nat} {m : Memory} :
    ∀ {lo : Nat}, Memory.wfFrom c lo m = true → Memory.wfFrom c lo (Memory.erase a m) = true := by
  induction m with
  | nil => intro lo _; rfl
  | cons e m ih =>
    intro lo hm
    obtain ⟨h1, h2, h3, h4⟩ := (Memory.wfFrom_cons ..).1 hm
    simp only [Memory.erase]
    split
    · exact Memory.wfFrom_mono (by omega) (ih h4)
    · exact (Memory.wfFrom_cons ..).2 ⟨h1, h2, h3, ih h4⟩

/-- The empty listing is canonical: reset memory is. -/
@[simp] theorem Memory.wf_nil : Memory.wf c [] = true := rfl

/-- A write to a valid address keeps the canonical form. -/
theorem Memory.wf_write {m : Memory} {a : Nat} (v : Cell) (ha : a < c.memSize) (hm : Memory.wf c m = true) :
    Memory.wf c (Memory.write c m a v) = true := by
  unfold Memory.wf Memory.write at *
  split
  · exact Memory.wfFrom_erase hm
  · exact Memory.wfFrom_insert ha ‹_› (Nat.zero_le a) hm

/-- Below its lower end a canonical listing lists nothing. -/
theorem Memory.find_of_lt {d : Cell} {a : Nat} {m : Memory} :
    ∀ {lo : Nat}, Memory.wfFrom c lo m = true → a < lo → Memory.find d a m = d := by
  induction m with
  | nil => intros; rfl
  | cons e m ih =>
    intro lo hm ha
    obtain ⟨h1, -, -, h4⟩ := (Memory.wfFrom_cons ..).1 hm
    rw [Memory.find_cons, if_neg (by omega), ih h4 (by omega)]

/-- Above the array a canonical listing lists nothing. -/
theorem Memory.find_of_size_le {d : Cell} {a : Nat} (ha : c.memSize ≤ a) {m : Memory} :
    ∀ {lo : Nat}, Memory.wfFrom c lo m = true → Memory.find d a m = d := by
  induction m with
  | nil => intros; rfl
  | cons e m ih =>
    intro lo hm
    obtain ⟨-, h2, -, h4⟩ := (Memory.wfFrom_cons ..).1 hm
    rw [Memory.find_cons, if_neg (by omega), ih h4]

end Sys2Proof.Machine
end

