-- ==== Sys2Proof/Laws/State.lean ====
section
/-! SUPPORT. What each update of the state does to each field. -/

namespace Sys2Proof.Machine

@[simp] theorem State.advance_mem (s : State) : s.advance.mem = s.mem := rfl
@[simp] theorem State.advance_prog (s : State) : s.advance.prog = s.prog := rfl
@[simp] theorem State.advance_pc (s : State) : s.advance.pc = s.pc + 1 := rfl
@[simp] theorem State.advance_phase (s : State) : s.advance.phase = s.phase := rfl
@[simp] theorem State.advance_fault (s : State) : s.advance.fault = s.fault := rfl

@[simp] theorem State.takeMemoryFault_mem (a : Nat) (s : State) : (s.takeMemoryFault a).mem = s.mem := rfl
@[simp] theorem State.takeMemoryFault_prog (a : Nat) (s : State) : (s.takeMemoryFault a).prog = s.prog := rfl
@[simp] theorem State.takeMemoryFault_pc (a : Nat) (s : State) : (s.takeMemoryFault a).pc = s.pc := rfl
@[simp] theorem State.takeMemoryFault_phase (a : Nat) (s : State) :
    (s.takeMemoryFault a).phase = .faulted := rfl
@[simp] theorem State.takeMemoryFault_fault (a : Nat) (s : State) :
    (s.takeMemoryFault a).fault = some (.memoryFault s.pc a) := rfl

@[simp] theorem State.install_mem (P : List Instr) (s : State) : (s.install P).mem = s.mem := rfl
@[simp] theorem State.install_prog (P : List Instr) (s : State) : (s.install P).prog = P := rfl
@[simp] theorem State.install_pc (P : List Instr) (s : State) : (s.install P).pc = 0 := rfl
@[simp] theorem State.install_phase (P : List Instr) (s : State) : (s.install P).phase = .loaded := rfl
@[simp] theorem State.install_fault (P : List Instr) (s : State) : (s.install P).fault = none := rfl

@[simp] theorem State.failLoad_mem (k : Nat) (r : DecodeFailure) (s : State) : (s.failLoad k r).mem = s.mem := rfl
@[simp] theorem State.failLoad_prog (k : Nat) (r : DecodeFailure) (s : State) : (s.failLoad k r).prog = [] := rfl
@[simp] theorem State.failLoad_pc (k : Nat) (r : DecodeFailure) (s : State) : (s.failLoad k r).pc = 0 := rfl
@[simp] theorem State.failLoad_phase (k : Nat) (r : DecodeFailure) (s : State) :
    (s.failLoad k r).phase = .faulted := rfl
@[simp] theorem State.failLoad_fault (k : Nat) (r : DecodeFailure) (s : State) :
    (s.failLoad k r).fault = some (.malformedInstruction k r) := rfl

@[simp] theorem State.enterRunning_mem (s : State) : s.enterRunning.mem = s.mem := rfl
@[simp] theorem State.enterRunning_prog (s : State) : s.enterRunning.prog = s.prog := rfl
@[simp] theorem State.enterRunning_pc (s : State) : s.enterRunning.pc = s.pc := rfl
@[simp] theorem State.enterRunning_phase (s : State) : s.enterRunning.phase = .running := rfl
@[simp] theorem State.enterRunning_fault (s : State) : s.enterRunning.fault = s.fault := rfl

@[simp] theorem State.haltAtEnd_mem (s : State) : s.haltAtEnd.mem = s.mem := by
  unfold State.haltAtEnd; split <;> [rfl; (split <;> rfl)]
@[simp] theorem State.haltAtEnd_prog (s : State) : s.haltAtEnd.prog = s.prog := by
  unfold State.haltAtEnd; split <;> [rfl; (split <;> rfl)]
@[simp] theorem State.haltAtEnd_pc (s : State) : s.haltAtEnd.pc = s.pc := by
  unfold State.haltAtEnd; split <;> [rfl; (split <;> rfl)]
@[simp] theorem State.haltAtEnd_fault (s : State) : s.haltAtEnd.fault = s.fault := by
  unfold State.haltAtEnd; split <;> [rfl; (split <;> rfl)]

/-- The phase a STEP ends in. -/
theorem State.haltAtEnd_phase (s : State) :
    s.haltAtEnd.phase =
      if s.phase = .faulted then .faulted else if s.pc = s.prog.length then .halted else s.phase := by
  unfold State.haltAtEnd
  split
  · assumption
  · split <;> rfl

/-- A cell's value depends on the memory alone. -/
theorem State.cell_congr {c : Config} {s t : State} (h : t.mem = s.mem) (a : Nat) : t.cell c a = s.cell c a := by
  unfold State.cell; rw [h]

end Sys2Proof.Machine
end

