-- ==== Sys2Proof/Laws/Ops.lean ====
section
/-! SUPPORT. One law for each shared operation: the checked accesses, the operand forms, the end of an instruction;
and from them all that an execute stage can do. -/

namespace Sys2Proof.Machine

variable {c : Config}

/-! ## Checked accesses -/

theorem memRead_of_lt {a : Nat} (h : a < c.memSize) (s : State) : memRead c a s = .ok (s.cell c a) := if_pos h

theorem memRead_of_le {a : Nat} (h : c.memSize ≤ a) (s : State) : memRead c a s = .error a :=
  if_neg (Nat.not_lt.2 h)

theorem memWrite_of_lt {a : Nat} (h : a < c.memSize) (v : Cell) (s : State) :
    memWrite c a v s = .ok { s with mem := Memory.write c s.mem a v } := if_pos h

theorem memWrite_of_le {a : Nat} (h : c.memSize ≤ a) (v : Cell) (s : State) : memWrite c a v s = .error a :=
  if_neg (Nat.not_lt.2 h)

/-- A checked write writes its one cell, or reports its address, which is out of range. -/
theorem memWrite_cases (a : Nat) (v : Cell) (s : State) :
    (a < c.memSize ∧ memWrite c a v s = .ok { s with mem := Memory.write c s.mem a v }) ∨
      (c.memSize ≤ a ∧ memWrite c a v s = .error a) := by
  rcases Nat.lt_or_ge a c.memSize with h | h
  · exact .inl ⟨h, memWrite_of_lt h v s⟩
  · exact .inr ⟨h, memWrite_of_le h v s⟩

/-- A checked read gives its cell, or reports its address, which is out of range. -/
theorem memRead_cases (a : Nat) (s : State) :
    (a < c.memSize ∧ memRead c a s = .ok (s.cell c a)) ∨ (c.memSize ≤ a ∧ memRead c a s = .error a) := by
  rcases Nat.lt_or_ge a c.memSize with h | h
  · exact .inl ⟨h, memRead_of_lt h s⟩
  · exact .inr ⟨h, memRead_of_le h s⟩

/-! ## Operand forms -/

/-- A direct operand that reports an address reports one out of range. -/
theorem directCell_error {src a : Nat} {s : State} (h : directCell c src s = .error a) : c.memSize ≤ a := by
  unfold directCell at h
  rcases memRead_cases (c := c) src s with ⟨-, h'⟩ | ⟨h1, h'⟩ <;> rw [h'] at h
  · cases h
  · cases h; exact h1

/-- The indirect operand, its base cell valid, is the checked read of the unwrapped sum. -/
theorem indirectCell_of_lt {src : Nat} (h : src < c.memSize) (offset : Nat) (s : State) :
    indirectCell c src offset s = memRead c (effectiveAddress (s.cell c src) offset) s := by
  unfold indirectCell; rw [memRead_of_lt h]

/-- The indirect operand checks its base cell's address first. -/
theorem indirectCell_of_le {src : Nat} (h : c.memSize ≤ src) (offset : Nat) (s : State) :
    indirectCell c src offset s = .error src := by
  unfold indirectCell; rw [memRead_of_le h]

/-- An indirect operand that reports an address reports one out of range. -/
theorem indirectCell_error {src offset a : Nat} {s : State} (h : indirectCell c src offset s = .error a) :
    c.memSize ≤ a := by
  rcases Nat.lt_or_ge src c.memSize with h1 | h1
  · rw [indirectCell_of_lt h1] at h; exact directCell_error h
  · rw [indirectCell_of_le h1] at h; cases h; exact h1

theorem reversedCell_error {v : Access Cell} {a : Nat} (h : reversedCell v = .error a) : v = .error a := by
  cases v with
  | error b => cases h; rfl
  | ok x => cases h

/-! ## The end of an instruction -/

@[simp] theorem complete_ok (s t : State) : complete s (.ok t) = .next t.advance := rfl
@[simp] theorem complete_error (s : State) (a : Nat) : complete s (.error a) = .next (s.takeMemoryFault a) := rfl

/-- An instruction that writes one cell from a source operand: the cell written and `pc` advanced, or a MemoryFault
taken for an address out of range. -/
theorem complete_writeDest_cases (dest : Nat) (v : Access Cell) (s : State)
    (hv : ∀ a, v = .error a → c.memSize ≤ a) :
    (∃ x, dest < c.memSize ∧ v = .ok x ∧ complete s (writeDest c dest v s) =
        .next { s with mem := Memory.write c s.mem dest x, pc := s.pc + 1 }) ∨
      (∃ a, c.memSize ≤ a ∧ complete s (writeDest c dest v s) = .next (s.takeMemoryFault a)) := by
  cases v with
  | error a => exact .inr ⟨a, hv a rfl, rfl⟩
  | ok x =>
    rcases memWrite_cases (c := c) dest x s with ⟨h, hw⟩ | ⟨h, hw⟩
    · exact .inl ⟨x, h, rfl, by simp only [writeDest, hw]; rfl⟩
    · exact .inr ⟨dest, h, by simp only [writeDest, hw]; rfl⟩

end Sys2Proof.Machine
end

