-- ==== Sys2Proof/Laws/Execute.lean ====
section
/-! SUPPORT. What each instruction does for valid addresses, and all that the execute stage and a STEP can do, said
once. -/

namespace Sys2Proof.Machine

variable {c : Config}

/-! ## The four instructions with valid addresses -/

theorem loadConst_of_lt {dest : Nat} (hd : dest < c.memSize) (const : Nat) (s : State) :
    loadConst c dest const s =
      .next { s with mem := Memory.write c s.mem dest (constCell const), pc := s.pc + 1 } := by
  unfold loadConst
  rw [memWrite_of_lt hd]
  rfl

theorem readMemory_of_lt {dest src offset : Nat} {s : State} (hd : dest < c.memSize) (hs : src < c.memSize)
    (he : effectiveAddress (s.cell c src) offset < c.memSize) :
    readMemory c dest src offset s =
      .next { s with
        mem := Memory.write c s.mem dest (s.cell c (effectiveAddress (s.cell c src) offset))
        pc := s.pc + 1 } := by
  unfold readMemory
  rw [indirectCell_of_lt hs, memRead_of_lt he, writeDest, memWrite_of_lt hd]
  rfl

/-- A computed address out of range is the fault (R122). -/
theorem readMemory_of_le {src offset : Nat} {s : State} (dest : Nat) (hs : src < c.memSize)
    (he : c.memSize ≤ effectiveAddress (s.cell c src) offset) :
    readMemory c dest src offset s = .next (s.takeMemoryFault (effectiveAddress (s.cell c src) offset)) := by
  unfold readMemory
  rw [indirectCell_of_lt hs, memRead_of_le he]
  rfl

theorem writeMemory_of_lt {src dest : Nat} (hs : src < c.memSize) (hd : dest < c.memSize) (s : State) :
    writeMemory c src dest s =
      .next { s with mem := Memory.write c s.mem dest (s.cell c src), pc := s.pc + 1 } := by
  unfold writeMemory directCell
  rw [memRead_of_lt hs, writeDest, memWrite_of_lt hd]
  rfl

theorem bitreverse_of_lt {dest src : Nat} (hd : dest < c.memSize) (hs : src < c.memSize) (s : State) :
    bitreverse c dest src s =
      .next { s with mem := Memory.write c s.mem dest (bitRev32 (s.cell c src).toNat), pc := s.pc + 1 } := by
  unfold bitreverse directCell
  rw [memRead_of_lt hs, reversedCell, writeDest, memWrite_of_lt hd, complete_ok]
  simp only [State.advance]

/-- A reversal fits its width. -/
theorem reverseBits_lt (n : Nat) : ∀ x, reverseBits n x < 2 ^ n := by
  induction n with
  | zero => intro x; exact Nat.one_pos
  | succ n ih =>
    intro x
    have h := ih (x / 2)
    have hx : x % 2 * 2 ^ n ≤ 2 ^ n := Nat.mul_le_of_le_div _ _ _ (by
      rw [Nat.div_self (Nat.two_pow_pos n)]; omega)
    rw [reverseBits, Nat.pow_succ]
    omega

/-! ## The execute stage -/

/-- This hardware's execute stage is the parametric one at this hardware's parameters. -/
theorem exec_eq (i : Instr) (s : State) : exec i s = execWith hw i s := by cases i <;> rfl

theorem exec_eq_execWith : exec = execWith hw := funext fun i => funext fun s => exec_eq i s

/-- Executing an instruction writes its destination cell and advances `pc`, or takes a MemoryFault for an address
out of range: there is no third case. -/
theorem execWith_cases (i : Instr) (s : State) :
    (∃ v, i.dest < c.memSize ∧ execWith c i s =
        .next { s with mem := Memory.write c s.mem i.dest v, pc := s.pc + 1 }) ∨
      (∃ a, c.memSize ≤ a ∧ execWith c i s = .next (s.takeMemoryFault a)) := by
  have weaken : ∀ {dest : Nat} {v : Access Cell}, (∀ a, v = .error a → c.memSize ≤ a) →
      (∃ x, dest < c.memSize ∧ complete s (writeDest c dest v s) =
        .next { s with mem := Memory.write c s.mem dest x, pc := s.pc + 1 }) ∨
      (∃ a, c.memSize ≤ a ∧ complete s (writeDest c dest v s) = .next (s.takeMemoryFault a)) := by
    intro dest v hv
    rcases complete_writeDest_cases dest v s hv with ⟨x, h, -, e⟩ | h
    · exact .inl ⟨x, h, e⟩
    · exact .inr h
  cases i with
  | loadConst dest const =>
    exact weaken (dest := dest) (v := .ok (constCell const)) (fun a h => by cases h)
  | readMemory dest src offset => exact weaken (fun a h => indirectCell_error h)
  | writeMemory src dest => exact weaken (fun a h => directCell_error h)
  | bitreverse dest src => exact weaken (fun a h => directCell_error (reversedCell_error h))

/-- `execWith_cases` for this hardware's execute stage. -/
theorem exec_cases (i : Instr) (s : State) :
    (∃ v, i.dest < 4096 ∧ exec i s =
        .next { s with mem := Memory.write hw s.mem i.dest v, pc := s.pc + 1 }) ∨
      (∃ a, 4096 ≤ a ∧ exec i s = .next (s.takeMemoryFault a)) := by
  rw [exec_eq]; exact execWith_cases (c := hw) i s

/-- A STEP's three cases: an instruction executed, nothing left to execute, not accepted. -/
theorem stepVia_cases (ex : Instr → State → Host.Outcome State Fault Refusal) (s : State) :
    (s.phase.acceptsStep = true ∧ ∃ i, s.prog[s.pc]? = some i ∧
        ∀ t, ex i s.enterRunning = .next t → stepVia ex s = .next t.haltAtEnd) ∨
      (s.phase.acceptsStep = true ∧ s.prog.length ≤ s.pc ∧ stepVia ex s = .next s.enterRunning.haltAtEnd) ∨
      (s.phase.acceptsStep = false ∧ stepVia ex s = .refused (.notAccepted s.phase)) := by
  unfold stepVia
  cases hp : s.phase.acceptsStep with
  | false => exact .inr (.inr ⟨rfl, rfl⟩)
  | true =>
    cases hi : s.prog[s.pc]? with
    | none => exact .inr (.inl ⟨rfl, by simpa using hi, rfl⟩)
    | some i => exact .inl ⟨rfl, i, rfl, fun t ht => by simp [ht]⟩

/-- All that a STEP can do, for any parameters: execute an instruction whole, take its MemoryFault, halt with nothing
left, or be refused. -/
theorem stepVia_execWith_cases (s : State) :
    (∃ i v, s.phase.acceptsStep = true ∧ s.prog[s.pc]? = some i ∧ i.dest < c.memSize ∧
        stepVia (execWith c) s = .next (State.haltAtEnd
          { s with mem := Memory.write c s.mem i.dest v, pc := s.pc + 1, phase := .running })) ∨
      (∃ i a, s.phase.acceptsStep = true ∧ s.prog[s.pc]? = some i ∧ c.memSize ≤ a ∧
        stepVia (execWith c) s = .next (s.takeMemoryFault a)) ∨
      (s.phase.acceptsStep = true ∧ s.prog.length ≤ s.pc ∧
        stepVia (execWith c) s = .next s.enterRunning.haltAtEnd) ∨
      (s.phase.acceptsStep = false ∧ stepVia (execWith c) s = .refused (.notAccepted s.phase)) := by
  rcases stepVia_cases (execWith c) s with ⟨hp, i, hi, hex⟩ | h | h
  · rcases execWith_cases (c := c) i s.enterRunning with ⟨v, hd, he⟩ | ⟨a, ha, he⟩
    · exact .inl ⟨i, v, hp, hi, hd, hex _ he⟩
    · exact .inr (.inl ⟨i, a, hp, hi, ha, hex _ he⟩)
  · exact .inr (.inr (.inl h))
  · exact .inr (.inr (.inr h))

/-- All that one step of this machine can do. -/
theorem step_cases (s : State) :
    (∃ i v, s.phase.acceptsStep = true ∧ s.prog[s.pc]? = some i ∧ i.dest < 4096 ∧ step s = .next
        (State.haltAtEnd { s with mem := Memory.write hw s.mem i.dest v, pc := s.pc + 1, phase := .running })) ∨
      (∃ i a, s.phase.acceptsStep = true ∧ s.prog[s.pc]? = some i ∧ 4096 ≤ a ∧
        step s = .next (s.takeMemoryFault a)) ∨
      (s.phase.acceptsStep = true ∧ s.prog.length ≤ s.pc ∧ step s = .next s.enterRunning.haltAtEnd) ∨
      (s.phase.acceptsStep = false ∧ step s = .refused (.notAccepted s.phase)) := by
  unfold step
  rw [exec_eq_execWith]
  exact stepVia_execWith_cases (c := hw) s

end Sys2Proof.Machine
end

