-- ==== Sys2Proof/Laws/Controller.lean ====
section
/-! SUPPORT. The laws of the transactions: which phases accept what, LOAD record by record, and how a STEP, a DUMP
and the command answer. -/

namespace Sys2Proof.Machine

variable {c : Config} {s t : State}

/-! ## Acceptance -/

theorem Phase.acceptsStep_iff (p : Phase) : p.acceptsStep = true ↔ p = .loaded ∨ p = .running := by
  cases p <;> decide

theorem Phase.acceptsStep_eq_false_iff (p : Phase) :
    p.acceptsStep = false ↔ p = .empty ∨ p = .halted ∨ p = .faulted := by
  cases p <;> decide

theorem Phase.acceptsLoad_iff (p : Phase) : p.acceptsLoad = true ↔ p = .empty ∨ p = .loaded ∨ p = .halted := by
  cases p <;> decide

theorem Phase.acceptsDump_iff (p : Phase) : p.acceptsDump = true ↔ p ≠ .faulted := by
  cases p <;> decide

/-! ## LOAD -/

/-- Fewer than six bytes are no record. -/
theorem decodeRecords_of_short (strict : Bool) (index : Nat) {B : List Byte} (h : B.length < 6) :
    decodeRecords strict index B = .ok [] := by
  match B, h with
  | [], _ => rfl
  | [_], _ => rfl
  | [_, _], _ => rfl
  | [_, _, _], _ => rfl
  | [_, _, _, _], _ => rfl
  | [_, _, _, _, _], _ => rfl

/-- A record, then the rest of the blob. -/
theorem decodeRecords_append (strict : Bool) (index : Nat) {B : List Byte} (rest : List Byte)
    (h : B.length = 6) :
    decodeRecords strict index (B ++ rest) =
      match decode strict B with
      | .error r => .error (index, r)
      | .ok i =>
        match decodeRecords strict (index + 1) rest with
        | .error e => .error e
        | .ok is => .ok (i :: is) := by
  match B, h with
  | [_, _, _, _, _, _], _ => rfl

/-- LOAD in an accepting phase on this hardware. -/
theorem load_of_accepts (blob : List Byte) (h : s.phase.acceptsLoad = true) :
    load hw blob s =
      match decodeRecords false 0 blob with
      | .ok P => (s.install P, .success)
      | .error e => (s.failLoad e.1 e.2, .error (.malformedInstruction e.1 e.2)) := by
  unfold load
  rw [h, show hw.strictDecode = false from rfl, show hw.holds (blob.length / 6) = true from rfl]
  rcases decodeRecords false 0 blob with ⟨k, r⟩ | P <;> rfl

/-! ## STEP, DUMP, the command -/

theorem stepTransaction_of_next {ex : Instr → State → Host.Outcome State Fault Refusal}
    (h : stepVia ex s = .next t) : stepTransaction ex s = (t, t.stepResponse) := by
  unfold stepTransaction; rw [h]

theorem dumpRangeOk_iff (c : Config) (first last : Nat) :
    dumpRangeOk c first last = true ↔ first ≤ last ∧ first < c.memSize ∧ last < c.memSize := by
  simp [dumpRangeOk, and_assoc]

@[simp] theorem afterSuccess_success (s : State) (k : State → State × Response) :
    afterSuccess (s, .success) k = k s := rfl

theorem afterSuccess_of_ne {p : State × Response} (h : p.2 ≠ .success) (k : State → State × Response) :
    afterSuccess p k = p := if_neg h

end Sys2Proof.Machine
end

