-- ==== Sys2Proof/Laws/PerInstr.lean ====
section
/-! SUPPORT. Families of statements about every instruction, one lemma a constructor. -/

namespace Sys2Proof.Laws.WordNumber

/-- The encoded word is the number the layout's formula gives (R63, R64, R65), with nothing lost at 48 bits. -/
def Statement (i : Instr) : Prop := (encodeWord i).toNat = i.wordNat

theorem loadConst (dest const : Nat) : Statement (.loadConst dest const) := by
  simp only [Statement, encodeWord, Instr.wordNat, BitVec.toNat_ofNat]; omega

theorem readMemory (dest src offset : Nat) : Statement (.readMemory dest src offset) := by
  simp only [Statement, encodeWord, Instr.wordNat, BitVec.toNat_ofNat]; omega

theorem writeMemory (src dest : Nat) : Statement (.writeMemory src dest) := by
  simp only [Statement, encodeWord, Instr.wordNat, BitVec.toNat_ofNat]; omega

theorem bitreverse (dest src : Nat) : Statement (.bitreverse dest src) := by
  simp only [Statement, encodeWord, Instr.wordNat, BitVec.toNat_ofNat]; omega

end Sys2Proof.Laws.WordNumber
end

