-- ==== Sys2Proof/Tests/Slice0.lean ====
section
/-! SUPPORT. Tests with expected values from spec/95_test_vectors.md or written out by hand from the encodings of
R61 to R65, and the witnesses that the hypotheses of the obligations can be met. -/

namespace Sys2Proof.Tests

open Sys2Proof Sys2Proof.Machine

/-! ## Helpers -/

/-- The next state of an outcome, if it is one. -/
def nextOf : Host.Outcome State Fault Refusal → Option State
  | .next t => some t
  | .fault _ => none
  | .refused _ => none

/-- A state with these cells, this program, at index `pc`, in this phase, no fault recorded. -/
def st (mem : Memory) (prog : List Instr) (pc : Nat) (phase : Phase) : State := ⟨mem, prog, pc, phase, none⟩

/-- A state between steps with these cells and an empty program store. -/
def cells (mem : Memory) : State := st mem [] 0 .running

/-- The machine after the MemoryFault of program P5's kind at index 0. -/
def dead : State := ⟨[(0, 4096)], [.readMemory 1 0 0], 0, .faulted, some (.memoryFault 0 4096)⟩

/-! ## WellFormed refuses each operand out of its field (R61, R100) -/

theorem test_wf_loadConst_dest : ¬ (Instr.loadConst 4096 0).WellFormed := by decide
theorem test_wf_loadConst_const : ¬ (Instr.loadConst 0 33554432).WellFormed := by decide
theorem test_wf_readMemory_dest : ¬ (Instr.readMemory 4096 0 0).WellFormed := by decide
theorem test_wf_readMemory_src : ¬ (Instr.readMemory 0 4096 0).WellFormed := by decide
theorem test_wf_readMemory_offset : ¬ (Instr.readMemory 0 0 32).WellFormed := by decide
theorem test_wf_writeMemory_src : ¬ (Instr.writeMemory 4096 0).WellFormed := by decide
theorem test_wf_writeMemory_dest : ¬ (Instr.writeMemory 0 4096).WellFormed := by decide
theorem test_wf_bitreverse_dest : ¬ (Instr.bitreverse 4096 0).WellFormed := by decide
theorem test_wf_bitreverse_src : ¬ (Instr.bitreverse 0 4096).WellFormed := by decide
theorem test_wf_largest : (Instr.loadConst 4095 33554431).WellFormed ∧ (Instr.readMemory 4095 4095 31).WellFormed ∧
    (Instr.writeMemory 4095 4095).WellFormed ∧ (Instr.bitreverse 4095 4095).WellFormed := by decide

/-! ## Decoding words written out from the encodings -/

/-- R63: code 60 = 111100, then 12 bits of `dest`, 25 of `const`, 5 unassigned. -/
theorem test_decode_loadConst :
    decodeWord false 0b111100_101010111100_1001000110100010101100111_00000#48 =
      some (.loadConst 0b101010111100 0b1001000110100010101100111) := by decide

/-- R64: 13 unassigned bits, code 39 = 100111, 12 bits of `dest`, 12 of `src`, 5 of `offset`. -/
theorem test_decode_readMemory :
    decodeWord false 0b0000000000000_100111_000100100011_010001010110_10101#48 =
      some (.readMemory 0b000100100011 0b010001010110 0b10101) := by decide

/-- R65: 18 unassigned bits, code 53 = 110101, 12 bits of `src`, 12 of `dest`. -/
theorem test_decode_writeMemory :
    decodeWord false 0b000000000000000000_110101_000100100011_010001010110#48 =
      some (.writeMemory 0b000100100011 0b010001010110) := by decide

/-- R65: 18 unassigned bits, code 28 = 011100, 12 bits of `dest`, 12 of `src`. -/
theorem test_decode_bitreverse :
    decodeWord false 0b000000000000000000_011100_000100100011_010001010110#48 =
      some (.bitreverse 0b000100100011 0b010001010110) := by decide

/-- V-ENC E9, E20, E28, E33: the bytes in blob order. -/
theorem test_decode_bytes :
    decode false [0xF2, 0xAF, 0x24, 0x68, 0xAC, 0xE0] = .ok (.loadConst 2748 19088743) ∧
    decode false [0x00, 0x04, 0xE2, 0x46, 0x8A, 0xD5] = .ok (.readMemory 291 1110 21) ∧
    decode false [0x00, 0x00, 0x35, 0x12, 0x34, 0x56] = .ok (.writeMemory 291 1110) ∧
    decode false [0x00, 0x00, 0x1C, 0x12, 0x34, 0x56] = .ok (.bitreverse 291 1110) := by decide

/-- V-ENC E12, E22 (R73): a word with two codes decodes by the widest layout. -/
theorem test_decode_widest_first :
    decode false [0xF0, 0x04, 0xE0, 0x00, 0x00, 0x00] = .ok (.loadConst 19 16777216) ∧
    decode false [0x00, 0x04, 0xF5, 0x00, 0x00, 0x00] = .ok (.readMemory 2688 0 0) := by decide

/-- V-DEC X2, X3, X4, X7: bits no field owns are ignored. -/
theorem test_decode_unassigned :
    decode false [0xF0, 0x00, 0x00, 0x00, 0x00, 0xFF] = .ok (.loadConst 0 7) ∧
    decode false [0x80, 0x04, 0xE0, 0x00, 0x00, 0x00] = .ok (.readMemory 0 0 0) ∧
    decode false [0x03, 0xF8, 0x35, 0x00, 0x00, 0x00] = .ok (.writeMemory 0 0) ∧
    decode false [0x00, 0x00, 0x5C, 0x00, 0x00, 0x00] = .ok (.bitreverse 0 0) := by decide

/-- V-DEC X1, X3 under `STRICT_DECODE` (D2); the spec says `MalformedInstruction`, its reason is log entry 6. -/
theorem test_decode_strict :
    decode true [0xF0, 0x00, 0x00, 0x00, 0x00, 0x1F] = .error .opcode ∧
    decode true [0x80, 0x04, 0xE0, 0x00, 0x00, 0x00] = .error .opcode := by decide

/-- V-DEC X8, X9, X11, X12, X15. -/
theorem test_decode_malformed :
    decode false [0x00, 0x00, 0x00, 0x00, 0x00, 0x00] = .error .opcode ∧
    decode false [0xFF, 0xFF, 0xFF, 0xFF, 0xFF, 0xFF] = .error .opcode ∧
    decode false [0x00, 0x07, 0xE0, 0x00, 0x00, 0x00] = .error .opcode ∧
    decode false [0xEC, 0x00, 0x00, 0x00, 0x00, 0x00] = .error .opcode ∧
    decode false [0x08, 0x00, 0x4E, 0x00, 0x00, 0x00] = .error .opcode := by decide

/-- V-DEC X16, X17, X18. -/
theorem test_decode_length :
    decode false [] = .error .length ∧ decode false [0xF0, 0x00, 0x00, 0x00, 0x05] = .error .length ∧
    decode false [0xF0, 0x00, 0x00, 0x00, 0x05, 0x40, 0x00] = .error .length := by decide

/-- V-ENC E14, E24, E29: operands out of range are masked. -/
theorem test_encode_truncates :
    encode (.loadConst 8191 33554433) = [0xF3, 0xFF, 0xC0, 0x00, 0x00, 0x20] ∧
    encode (.readMemory 2 1 33) = [0x00, 0x04, 0xE0, 0x04, 0x00, 0x21] ∧
    encode (.writeMemory 4387 9302) = [0x00, 0x00, 0x35, 0x12, 0x34, 0x56] := by decide

/-- V-BR. -/
theorem test_bitRev32 : bitRev32 0x12345678 = 0x1E6A2C48#32 ∧ bitRev32 0xDEADBEEF = 0xF77DB57B#32 ∧
    bitRev32 0x100000001 = 0x80000000#32 := by decide

/-! ## One step of each instruction -/

/-- V-LC LC3: all 25 bits of the constant, the last cell. -/
theorem test_loadConst_largest :
    nextOf (exec (.loadConst 4095 33554431) (cells [])) =
      some { cells [(4095, 0x01FFFFFF)] with pc := 1 } := by decide

/-- V-LC LC2: all 32 bits are replaced. -/
theorem test_loadConst_replaces :
    nextOf (exec (.loadConst 7 0) (cells [(7, 0xFFFFFF80)])) = some { cells [] with pc := 1 } := by decide

/-- V-RM RM9: destination and base are one cell, the base is read first. -/
theorem test_readMemory_own_base :
    nextOf (exec (.readMemory 1 1 1) (cells [(1, 3), (4, 9)])) =
      some { cells [(1, 9), (4, 9)] with pc := 1 } := by decide

/-- V-RM RM6: the sum is not reduced to 32 bits. -/
theorem test_readMemory_no_wrap :
    nextOf (exec (.readMemory 1 0 31) (cells [(0, 0xFFFFFFFF)])) =
      some { cells [(0, 0xFFFFFFFF)] with phase := .faulted, fault := some (.memoryFault 0 4294967326) } := by decide

/-- V-WM WM1: the first operand is the source. -/
theorem test_writeMemory_direction :
    nextOf (exec (.writeMemory 0 1) (cells [(0, 42), (1, 7)])) =
      some { cells [(0, 42), (1, 42)] with pc := 1 } := by decide

/-- V-WM WM4: a source never written holds 0. -/
theorem test_writeMemory_unwritten :
    nextOf (exec (.writeMemory 6 7) (cells [(7, 3)])) = some { cells [] with pc := 1 } := by decide

/-- V-BX BX5. -/
theorem test_bitreverse_mixed :
    nextOf (exec (.bitreverse 6 5) (cells [(5, 0x12345)])) =
      some { cells [(5, 0x12345), (6, 0xA2C48000)] with pc := 1 } := by decide

/-- V-BX BX3: in place. -/
theorem test_bitreverse_in_place :
    nextOf (exec (.bitreverse 7 7) (cells [(7, 0x01FFFFFF)])) =
      some { cells [(7, 0xFFFFFF80)] with pc := 1 } := by decide

/-- V-ENC E4 as a table word: the placed instruction is what the first step after reset runs. -/
theorem test_withFetchWord :
    decodeTableWord 48 0xF000400000E0 = some (.loadConst 1 7) ∧
    nextOf (step (State.reset.withFetchWord 48 0xF000400000E0)) =
      some ⟨[(1, 7)], [.loadConst 1 7], 1, .halted, none⟩ := by decide

/-! ## Transactions -/

/-- V-LOAD L5: the failing record's index is reported and nothing is loaded. -/
theorem test_load_malformed :
    transact (.load [0xF0, 0, 0, 0, 0x05, 0x40, 0, 0, 0, 0, 0, 0, 0, 0, 0x35, 0, 0, 0x01]) State.reset =
      (⟨[], [], 0, .faulted, some (.malformedInstruction 1 .opcode)⟩, .error (.malformedInstruction 1 .opcode)) := by
  decide

/-- Program P1 with `DUMP(0,1)` (R166). -/
theorem test_execute_copy :
    (execute [0xF0, 0, 0, 0, 0x05, 0x40, 0xF0, 0, 0x40, 0, 0, 0xE0, 0, 0, 0x35, 0, 0, 0x01] 0 1 State.reset).2 =
      .snapshot [(0, 42), (1, 42)] := by decide

/-- V-ASM A5: blob and labels. -/
theorem test_assemble_labels :
    (match assemble "; demo\nstart:\n  LOAD 0, 42\n\nnext: LOAD 1, 7\nWRITE 0, 1\nend:\n".toList with
      | .ok out => some (out.blob, out.labels)
      | .error _ => none) =
    some ([0xF0, 0, 0, 0, 0x05, 0x40, 0xF0, 0, 0x40, 0, 0, 0xE0, 0, 0, 0x35, 0, 0, 0x01],
      [("start".toList, 0), ("next".toList, 1), ("end".toList, 3)]) := by decide

/-- V-ASM A8. -/
theorem test_assemble_unknown :
    assemble "LOAD 0, 1\nLOAD 1, 2\nFOO 1, 2\n".toList = .error ⟨3, .unknownMnemonic⟩ := by decide

/-! ## Witnesses: the hypotheses of each obligation can be met, each clause at a boundary of its range -/

theorem witness_DecodeOfEncodeIsTruncation :
    (Instr.loadConst 4095 33554431).WellFormed ∧ (Instr.readMemory 4095 0 31).WellFormed ∧
    ¬ (Instr.readMemory 0 0 32).WellFormed := by decide

/-- Each branch of the decode order, and the branch before it missed by one. -/
theorem witness_RecordsDecodeInOrder :
    (0xF3#8).toNat / 4 = 60 ∧ (0xF4#8).toNat / 4 ≠ 60 ∧
    (0x04#8).toNat % 8 * 8 + (0xFF#8).toNat / 32 = 39 ∧ (0x05#8).toNat % 8 * 8 + (0x00#8).toNat / 32 ≠ 39 ∧
    (0xF5#8).toNat % 64 = 53 ∧ (0x1C#8).toNat % 64 = 28 ∧ (0x1D#8).toNat % 64 ≠ 28 := by decide

theorem witness_EncodedWordsDoNotAlias :
    decodeWord false 0x0004F5000000#48 = some (.readMemory 2688 0 0) ∧
    field 0x0004F5000000#48 29 24 = 53 := by decide

theorem witness_CanonicalIffReencodes :
    Opcode.readMemory.ownsCanonical 0x0004FFFFFFFF#48 = true ∧ isCanonical 0xF0000000001F#48 = false := by decide

/-- A canonical word, and one that is legal and not canonical. -/
theorem witness_ReencodeClearsUnassignedBits :
    isCanonical 0xF3FFFFFFFFE0#48 = true ∧
    decodeWord false 0xF3FFFFFFFFE0#48 = some (.loadConst 4095 33554431) ∧
    isCanonical 0x8004E0000000#48 = false ∧
    decodeWord false 0x8004E0000000#48 = some (.readMemory 0 0 0) := by decide

theorem witness_DecodeFailsExactly :
    [0xF0#8, 0x00#8, 0x00#8, 0x00#8, 0x05#8].length ≠ 6 ∧
    recordWord [0x00, 0x00, 0x36, 0x00, 0x00, 0x00] = some 0x000036000000#48 ∧
    field 0x000036000000#48 47 42 ≠ 60 ∧ field 0x000036000000#48 34 29 ≠ 39 ∧
    field 0x000036000000#48 29 24 = 54 := by decide

theorem witness_DecodeReturnsInRange :
    decode false [0xF3, 0xFF, 0xFF, 0xFF, 0xFF, 0xFF] = .ok (.loadConst 4095 33554431) ∧
    decode true [0x00, 0x04, 0xFF, 0xFF, 0xFF, 0xFF] = .ok (.readMemory 4095 4095 31) := by decide

theorem witness_StrictDecodeTakesCanonical :
    isCanonical 0x00001CFFFFFF#48 = true ∧ isCanonical 0x00005CFFFFFF#48 = false := by decide

theorem witness_RawEncodeFailsOnlyOnArity :
    [2, 1, 0].length = Opcode.readMemory.arity ∧ [2, 1].length ≠ Opcode.readMemory.arity := by decide

theorem witness_BitRevMovesEachBit : 31 < 32 ∧ 0x80000000 = 2 ^ 31 ∧ Nat.testBit 0x80000000 31 = true := by decide

theorem witness_BitRevIsInvolution :
    ∀ k < 32, (0x00018000#32).getLsbD (31 - k) = (0x00018000#32).getLsbD k := by decide

theorem witness_LoadConstWritesConstant :
    (Instr.loadConst 4095 33554431).WellFormed ∧ (Instr.loadConst 0 0).WellFormed := by decide

/-- The computed address at the last cell, and one past it. -/
theorem witness_ReadMemoryCopiesIndirectCell :
    (Instr.readMemory 1 0 31).WellFormed ∧
    ((cells [(0, 4064)]).cell hw 0).toNat + 31 = 4095 ∧ ((cells [(0, 4065)]).cell hw 0).toNat + 31 = 4096 := by
  decide

theorem witness_WriteMemoryCopiesCell :
    (Instr.writeMemory 0 4095).WellFormed ∧ (Instr.writeMemory 4095 4095).WellFormed := by decide

theorem witness_BitreverseWritesReversedCell :
    (Instr.bitreverse 4095 0).WellFormed ∧ (Instr.bitreverse 0 0).WellFormed := by decide

theorem witness_SelfCopyChangesOnlyPc : Memory.wf hw [(0, 9), (4095, 1)] = true ∧ 4095 < 4096 := by decide

theorem witness_InPlaceReversalTwiceRestores : 4095 < 4096 ∧ (cells [(4095, 1)]).cell hw 4095 = 1 := by decide

theorem witness_InstructionWritesOneCell :
    4096 ≤ ((cells [(0, 4096)]).cell hw 0).toNat + 0 ∧ ((cells [(0, 4095)]).cell hw 0).toNat + 0 < 4096 := by decide

/-- An array of 16 cells, the smallest whose faults need no computed address (V-LC LC5). -/
def small : Config := { hw with memSize := 16 }

/-- Each clause at its boundary: the first address past the array, and the last in it. -/
theorem witness_FirstInvalidAddressIsReported :
    small.memSize ≤ 16 ∧ 15 < small.memSize ∧
    small.memSize ≤ ((cells [(15, 14)]).cell small 15).toNat + 2 ∧
    ((cells [(15, 14)]).cell small 15).toNat + 1 < small.memSize := by decide

/-- Both sides of the equivalence: a fault at 4096, none at 4095. -/
theorem witness_OnlyReadMemoryFaults :
    (Instr.readMemory 1 0 0).WellFormed ∧ (cells [(0, 4096)]).phase ≠ .faulted ∧
    nextOf (exec (.readMemory 1 0 0) (cells [(0, 4096)])) =
      some { cells [(0, 4096)] with phase := .faulted, fault := some (.memoryFault 0 4096) } ∧
    4096 ≤ ((cells [(0, 4096)]).cell hw 0).toNat + 0 ∧
    ¬ 4096 ≤ ((cells [(0, 4095)]).cell hw 0).toNat + 0 := by decide

theorem witness_OnlyBitreverseMakesLargeCells :
    (Instr.loadConst 0 33554431).WellFormed ∧ (∀ a, ((cells []).cell hw a).toNat < 33554432) ∧
    (∀ dest src, Instr.loadConst 0 33554431 ≠ .bitreverse dest src) ∧
    exec (.loadConst 0 33554431) (cells []) = .next { cells [(0, 33554431)] with pc := 1 } :=
  ⟨by decide, fun _ => show (0 : Cell).toNat < 33554432 by decide, fun _ _ => nofun, rfl⟩

theorem witness_CanonicalMemoriesAgree :
    Memory.wf hw [(0, 1), (4095, 2)] = true ∧ Memory.wf hw [(0, 1)] = true ∧
    Memory.read hw [(0, 1), (4095, 2)] 4095 ≠ Memory.read hw [(0, 1)] 4095 := by decide

/-- A fetched instruction that goes on, one that ends the program, one that faults; nothing left; a phase that
takes no step. -/
theorem witness_StepRunsFetchedInstruction :
    (st [] [.loadConst 0 1, .writeMemory 0 1] 0 .loaded).prog[0]? = some (.loadConst 0 1) ∧
    exec (.loadConst 0 1) (st [] [.loadConst 0 1, .writeMemory 0 1] 0 .running) =
      .next (st [(0, 1)] [.loadConst 0 1, .writeMemory 0 1] 1 .running) ∧
    exec (.writeMemory 0 1) (st [(0, 1)] [.loadConst 0 1, .writeMemory 0 1] 1 .running) =
      .next (st [(0, 1), (1, 1)] [.loadConst 0 1, .writeMemory 0 1] 2 .running) ∧
    exec (.readMemory 1 0 0) (st [(0, 4096)] [.readMemory 1 0 0] 0 .running) = .next dead ∧
    (st [] [] 0 .loaded).pc = (st [] [] 0 .loaded).prog.length ∧
    State.reset.phase ≠ .loaded ∧ State.reset.phase ≠ .running ∧
    step (st [(0, 4096)] [.readMemory 1 0 0] 0 .loaded) = .next dead ∧
    dead.phase = .faulted ∧ dead.fault = some (.memoryFault 0 4096) :=
  ⟨rfl, rfl, rfl, rfl, rfl, by decide, by decide, rfl, rfl, rfl⟩

theorem witness_StepRunsLoadedRecord :
    transact (.load [0xF0, 0, 0, 0, 0x05, 0x40, 0, 0, 0x35, 0, 0, 1]) State.reset =
      (st [] [.loadConst 0 42, .writeMemory 0 1] 0 .loaded, .success) ∧
    1 < [0xF0#8, 0, 0, 0, 0x05, 0x40, 0, 0, 0x35, 0, 0, 1].length / 6 ∧
    decode hw.strictDecode (([0xF0, 0, 0, 0, 0x05, 0x40, 0, 0, 0x35, 0, 0, 1].drop (6 * 1)).take 6) =
      .ok (.writeMemory 0 1) ∧
    exec (.writeMemory 0 1) (st [(0, 42)] [.loadConst 0 42, .writeMemory 0 1] 1 .running) =
      .next (st [(0, 42), (1, 42)] [.loadConst 0 42, .writeMemory 0 1] 2 .running) :=
  ⟨by decide, by decide, by decide, rfl⟩

theorem witness_StepRefusedExactlyOutsideRun :
    step State.reset = .refused (.notAccepted .empty) ∧ step dead = .refused (.notAccepted .faulted) ∧
    step (st [] [] 0 .halted) = .refused (.notAccepted .halted) ∧
    step (st [] [] 0 .loaded) = .next (st [] [] 0 .halted) := ⟨rfl, rfl, rfl, rfl⟩

/-- A step that goes on and one that faults, each at the program's last index. -/
theorem witness_SuccessorIsNextIndex :
    step (st [] [.loadConst 0 1] 0 .loaded) = .next (st [(0, 1)] [.loadConst 0 1] 1 .halted) ∧
    step (st [(0, 4096)] [.readMemory 1 0 0] 0 .loaded) = .next dead ∧ dead.pc = 0 ∧ dead.phase = .faulted :=
  ⟨rfl, rfl, rfl, rfl⟩

/-- A step that ends the program, one before its end, and a Halted state. -/
theorem witness_HaltedExactlyAtEnd :
    step (st [] [.loadConst 0 1] 0 .loaded) = .next (st [(0, 1)] [.loadConst 0 1] 1 .halted) ∧
    step (st [] [.loadConst 0 1, .writeMemory 0 1] 0 .loaded) =
      .next (st [(0, 1)] [.loadConst 0 1, .writeMemory 0 1] 1 .running) ∧
    (st [] [] 0 .halted).phase = .halted := ⟨rfl, rfl, rfl⟩

theorem witness_FaultsArePrecise :
    step (st [(0, 4096)] [.readMemory 1 0 0] 0 .loaded) = .next dead ∧ dead.phase = .faulted ∧
    Request.run ≠ .reset := ⟨rfl, rfl, by decide⟩

theorem witness_ProgramStoreIsImmutable :
    step (st [] [.loadConst 0 1] 0 .loaded) = .next (st [(0, 1)] [.loadConst 0 1] 1 .halted) ∧
    Request.run ≠ .reset ∧ ∀ blob, Request.run ≠ .load blob := ⟨rfl, by decide, fun _ => nofun⟩

/-- Each clause: a phase that takes no LOAD; a blob whose records all decode, its last at index 1; one whose first
failing record is index 1. -/
theorem witness_LoadDecodesWholeBlob :
    dead.phase = .faulted ∧ (st [] [.loadConst 0 1, .writeMemory 0 1] 1 .running).phase = .running ∧
    State.reset.phase = .empty ∧
    (∀ k < [0xF0#8, 0, 0, 0, 0x05, 0x40, 0, 0, 0x35, 0, 0, 1, 0].length / 6, ∃ i,
      decode false (([0xF0, 0, 0, 0, 0x05, 0x40, 0, 0, 0x35, 0, 0, 1, 0].drop (6 * k)).take 6) = .ok i) ∧
    1 < [0xF0#8, 0, 0, 0, 0x05, 0x40, 0, 0, 0, 0, 0, 0].length / 6 ∧
    decode false (([0xF0, 0, 0, 0, 0x05, 0x40, 0, 0, 0, 0, 0, 0].drop (6 * 1)).take 6) = .error .opcode ∧
    ∀ j < 1, ∃ i, decode false (([0xF0, 0, 0, 0, 0x05, 0x40, 0, 0, 0, 0, 0, 0].drop (6 * j)).take 6) = .ok i := by
  refine ⟨rfl, rfl, rfl, fun k h => ?_, by decide, by decide, fun j h => ?_⟩
  · rcases (by simp at h; omega : k = 0 ∨ k = 1) with rfl | rfl
    · exact ⟨.loadConst 0 42, by decide⟩
    · exact ⟨.writeMemory 0 1, by decide⟩
  · obtain rfl : j = 0 := by omega
    exact ⟨.loadConst 0 42, by decide⟩

theorem witness_LoadIgnoresPartialTail :
    [0xF0#8, 0, 0, 0, 0x05, 0x40].length % 6 = 0 ∧ [0xF0#8, 0, 0x40, 0, 0].length < 6 ∧
    State.reset.phase = .empty := by decide

/-- A state of every phase with `pc` in its range, and a LOAD of each result. -/
theorem witness_TransactionsFollowPhaseTable :
    State.reset.phase = .empty ∧ (st [] [.loadConst 0 1] 0 .loaded).pc ≤ 1 ∧
    (st [] [.loadConst 0 1, .writeMemory 0 1] 1 .running).pc ≤ 2 ∧ (st [] [.loadConst 0 1] 1 .halted).pc ≤ 1 ∧
    dead.pc ≤ dead.prog.length ∧ dead.phase = .faulted ∧
    (transact (.load []) State.reset).2 = .success ∧
    (transact (.load [0, 0, 0, 0, 0, 0]) State.reset).2 = .error (.malformedInstruction 0 .opcode) := by decide

theorem witness_RefusedChangesNothing :
    (transact .step State.reset).2 = .refused ∧ (transact (.dump 0 0) dead).2 = .refused ∧
    (transact (.load []) dead).2 = .refused := by decide

theorem witness_FaultedLeftOnlyByReset : dead.phase = .faulted ∧ Request.step ≠ .reset := by decide

theorem witness_ResetState : transactVia small exec .reset dead = (State.reset, .success) := rfl

/-- A valid range at the last cell; an empty range; one past the last cell. -/
theorem witness_DumpReadsRange :
    State.reset.phase ≠ .faulted ∧ 4095 ≤ 4095 ∧ 4095 < 4096 ∧ 4 < 5 ∧
    (transact (.dump 4095 4095) (cells [(4095, 3)])).2 = .snapshot [(4095, 3)] ∧
    (transact (.dump 5 4) State.reset).2 = .dumpRangeError 5 4 ∧
    (transact (.dump 0 4096) State.reset).2 = .dumpRangeError 0 4096 := by decide

/-- An empty program, one of two instructions, one that faults. -/
theorem witness_RunIsRepeatedStep :
    State.reset.phase ≠ .loaded ∧ State.reset.phase ≠ .running ∧
    (st [] [] 0 .loaded).pc ≤ (st [] [] 0 .loaded).prog.length ∧
    transact .run (st [] [] 0 .loaded) = (st [] [] 0 .halted, .success) ∧
    transact .run (st [] [.loadConst 0 1, .writeMemory 0 1] 0 .loaded) =
      (st [(0, 1), (1, 1)] [.loadConst 0 1, .writeMemory 0 1] 2 .halted, .success) ∧
    transact .run (st [(0, 4096)] [.readMemory 1 0 0] 0 .loaded) = (dead, .error (.memoryFault 0 4096)) := by decide

theorem witness_RunTerminates :
    (st [(0, 4096)] [.readMemory 1 0 0] 0 .loaded).phase = .loaded ∧
    (st [(0, 4096)] [.readMemory 1 0 0] 0 .loaded).pc ≤ 1 ∧
    (st [(0, 4096)] [.readMemory 1 0 0] 0 .loaded).fault = none := by decide

/-- A program whose semantics has no fault, and one whose semantics faults at index 1. -/
theorem witness_RunComputesProgramMeaning :
    (∀ i ∈ [Instr.loadConst 0 4095, .readMemory 1 0 1], i.WellFormed) ∧
    (programMeaning 4096 0 [.loadConst 0 4095, .readMemory 1 0 0] hw.memInit).2 = none ∧
    (programMeaning 4096 0 [.loadConst 0 4095, .readMemory 1 0 1] hw.memInit).2 =
      some (.memoryFault 1 4096) := by decide

theorem witness_ExecuteEncodedProgram :
    (∀ i ∈ [Instr.loadConst 0 4095, .readMemory 1 0 0], i.WellFormed) ∧
    (programMeaning 4096 0 [.loadConst 0 4095, .readMemory 1 0 0] hw.memInit).2 = none ∧ 4095 < 4096 ∧
    (programMeaning 4096 0 [.loadConst 0 4096, .readMemory 1 0 0] hw.memInit).2 =
      some (.memoryFault 1 4096) := by decide

theorem witness_SnapshotOnlyAfterSuccess :
    (execute [0xF0, 0, 0, 0, 0x05, 0x40] 0 0 dead).2 = .snapshot [(0, 42)] := by decide

theorem witness_StepKeepsInvariant :
    (st [] [.loadConst 0 1] 0 .loaded).Inv hw ∧
    step (st [] [.loadConst 0 1] 0 .loaded) = .next (st [(0, 1)] [.loadConst 0 1] 1 .halted) :=
  ⟨⟨by decide, by decide, by decide, ⟨rfl, rfl⟩⟩, rfl⟩

theorem witness_TransactionsKeepInvariant : dead.Inv hw ∧ State.reset.Inv small :=
  ⟨⟨by decide, by decide, by decide, ⟨rfl, by decide, by decide⟩⟩,
    ⟨by decide, by decide, by decide, ⟨rfl, rfl, rfl⟩⟩⟩

theorem witness_AssembledBlobLoads :
    ∃ out, assemble "LOAD 0, 1\nREAD 2, 1\n".toList = .ok out ∧
      out.instrs = [.loadConst 0 1, .readMemory 2 1 0] := ⟨_, rfl, by decide⟩

theorem witness_ReadOffsetDefaultsToZero :
    opcodeOf ['W', 'R', 'I', 'T', 'E'] = some .writeMemory ∧ [['0']].length ≠ Opcode.writeMemory.arity ∧
    ¬ (Opcode.writeMemory = .readMemory ∧ [['0']].length = 2) ∧
    parseOperand ['0', 'x', 'F', 'f'] = some 255 ∧ opcodeOf ['R', 'E', 'A', 'D'] = some .readMemory ∧
    parseOperands [['2'], ['1'], ['3', '1']] = some [2, 1, 31] ∧
    [['2'], ['1'], ['3', '1']].length = 3 := by decide

/-- V-ASM A9: the error in line 1; and one in the last line. -/
theorem witness_SyntaxErrorNamesFirstBadLine :
    assemble "LOAD 0\n".toList = .error ⟨1, .operandCount⟩ ∧
    assemble "a:\na:".toList = .error ⟨2, .duplicateLabel⟩ := by decide

end Sys2Proof.Tests
end

