-- ==== Sys2Proof/Proofs/ProgramStore.lean ====
section
/-! What every STEP keeps, STEP and RUN as transactions keep; and the program store under each of them (R50). -/

namespace Sys2Proof.Machine

variable {c : Config} {s t : State} {P : State → Prop}
variable {ex : Instr → State → Host.Outcome State Fault Refusal}

/-- A STEP transaction leaves the state alone or ends in the next state of `stepVia`. -/
theorem stepTransaction_preserves (hs : P s) (hnext : ∀ t, stepVia ex s = .next t → P t) :
    P (stepTransaction ex s).1 := by
  unfold stepTransaction
  cases h : stepVia ex s with
  | next t => exact hnext t h
  | fault e => exact hs
  | refused r => exact hs

theorem runSteps_preserves (hstep : ∀ s, P s → P (stepTransaction ex s).1) (n : Nat) (hs : P s) :
    P (runSteps ex n s).1 := by
  induction n generalizing s with
  | zero => exact hstep s hs
  | succ n ih =>
    unfold runSteps
    split
    · exact ih (hstep s hs)
    · exact hstep s hs

/-- RUN keeps what every STEP transaction keeps. -/
theorem run_preserves (hstep : ∀ s, P s → P (stepTransaction ex s).1) (hs : P s) : P (run ex s).1 := by
  unfold run
  split
  · exact runSteps_preserves hstep _ hs
  · exact hs

/-! ## The program store -/

/-- R50 for STEP, for any parameters: neither a write of a cell, nor a MemoryFault, nor halting touches the program. -/
theorem stepVia_execWith_prog (h : stepVia (execWith c) s = .next t) : t.prog = s.prog := by
  rcases stepVia_execWith_cases (c := c) s with
    ⟨i, v, -, -, -, e⟩ | ⟨i, a, -, -, -, e⟩ | ⟨-, -, e⟩ | ⟨-, e⟩ <;> rw [e] at h <;> cases h
  · exact State.haltAtEnd_prog _
  · exact State.takeMemoryFault_prog a s
  · exact State.haltAtEnd_prog _

theorem step_prog (h : step s = .next t) : t.prog = s.prog := by
  unfold step at h
  rw [exec_eq_execWith] at h
  exact stepVia_execWith_prog h

theorem stepTransaction_execWith_prog (c : Config) (s : State) :
    (stepTransaction (execWith c) s).1.prog = s.prog :=
  stepTransaction_preserves (P := fun t => t.prog = s.prog) rfl fun _ => stepVia_execWith_prog

theorem run_execWith_prog (c : Config) (s : State) : (run (execWith c) s).1.prog = s.prog :=
  run_preserves (P := fun t => t.prog = s.prog) (fun t ht => (stepTransaction_execWith_prog c t).trans ht) rfl

/-- R50 for the transactions, for any parameters. -/
theorem transactVia_execWith_prog (c : Config) {r : Request} (s : State) (hreset : r ≠ .reset)
    (hload : ∀ blob, r ≠ .load blob) : (transactVia c (execWith c) r s).1.prog = s.prog := by
  cases r with
  | reset => exact absurd rfl hreset
  | load blob => exact absurd rfl (hload blob)
  | step => exact stepTransaction_execWith_prog c s
  | run => exact run_execWith_prog c s
  | dump first last => rfl

/-- Settles O31: a step's cases all keep the program, RUN keeps what each STEP keeps, and DUMP changes no state. -/
theorem programStoreIsImmutable : Obligations.ProgramStoreIsImmutable := by
  refine ⟨fun s t h => step_prog h, fun s r hreset hload => ?_⟩
  unfold transact
  rw [exec_eq_execWith]
  exact transactVia_execWith_prog hw s hreset hload

end Sys2Proof.Machine
end

