-- ==== Sys2Proof/Proofs/InstructionModel.lean ====
section
/-! The instruction model (spec/40_instruction_model.md): ENCODE masks each operand and DECODE reads it back (R103,
R106), where DECODE fails (R105), and the bits of BITREV32 (R108). -/

namespace Sys2Proof

/-! ## ENCODE -/

/-- Masking an operand twice is masking it once. -/
@[simp] theorem encodeWord_truncate (i : Instr) : encodeWord i.truncate = encodeWord i := by
  cases i <;> simp only [Instr.truncate, encodeWord, Nat.mod_mod]

@[simp] theorem encode_truncate (i : Instr) : encode i.truncate = encode i :=
  congrArg recordBytes (encodeWord_truncate i)

/-- Settles O3: the four forms of `encode_truncate`. -/
theorem encodeTruncatesOperands : Obligations.EncodeTruncatesOperands :=
  ⟨fun dest const => (encode_truncate (.loadConst dest const)).symm,
    fun dest src offset => (encode_truncate (.readMemory dest src offset)).symm,
    fun src dest => (encode_truncate (.writeMemory src dest)).symm,
    fun dest src => (encode_truncate (.bitreverse dest src)).symm⟩

/-- The fields of an instruction fit the 48 bits, so its word is the sum of them. -/
@[simp] theorem encodeWord_toNat (i : Instr) : (encodeWord i).toNat = i.wordNat := by
  cases i <;> simp only [encodeWord, Instr.wordNat, BitVec.toNat_ofNat] <;> omega

/-! ## DECODE of an encoded instruction -/

/-- The first test of R69 that an encoded instruction passes is its own, whose operand fields hold the masked
operands. -/
theorem decodeWordLenient_encodeWord (i : Instr) : decodeWordLenient (encodeWord i) = some i.truncate := by
  have hW := encodeWord_toNat i
  generalize encodeWord i = W at hW
  unfold decodeWordLenient field
  cases i with
  | loadConst dest const =>
    rw [Instr.wordNat] at hW
    rw [if_pos (by omega)]
    congr 2 <;> omega
  | readMemory dest src offset =>
    rw [Instr.wordNat] at hW
    rw [if_neg (by omega), if_pos (by omega)]
    congr 2 <;> omega
  | writeMemory src dest =>
    rw [Instr.wordNat] at hW
    rw [if_neg (by omega), if_neg (by omega), if_pos (by omega)]
    congr 2 <;> omega
  | bitreverse dest src =>
    rw [Instr.wordNat] at hW
    rw [if_neg (by omega), if_neg (by omega), if_neg (by omega), if_pos (by omega)]
    congr 2 <;> omega

/-- ENCODE sets no bit outside the fields of its own row (R72). -/
theorem ownsCanonical_encodeWord (i : Instr) : i.opcode.ownsCanonical (encodeWord i) = true := by
  rw [Opcode.ownsCanonical_iff, encodeWord_toNat]
  cases i <;> simp only [Instr.opcode, Instr.wordNat] <;> omega

theorem isCanonical_of_ownsCanonical {o : Opcode} {W : InstrWord} (h : o.ownsCanonical W = true) :
    isCanonical W = true := by
  cases o <;> simp [isCanonical, h]

/-- The strict decoder agrees with the lenient one on canonical words. -/
theorem decodeWord_of_isCanonical (strict : Bool) {W : InstrWord} (h : isCanonical W = true) :
    decodeWord strict W = decodeWordLenient W := by
  simp [decodeWord, h]

theorem decodeWord_encodeWord (strict : Bool) (i : Instr) : decodeWord strict (encodeWord i) = some i.truncate := by
  rw [decodeWord_of_isCanonical strict (isCanonical_of_ownsCanonical (ownsCanonical_encodeWord i)),
    decodeWordLenient_encodeWord]

theorem decode_encode (strict : Bool) (i : Instr) : decode strict (encode i) = .ok i.truncate := by
  rw [encode, decode_recordBytes, decodeWord_encodeWord]

/-- Settles O2: an encoded word is canonical, so both decoders read its fields, the masked operands. -/
theorem decodeOfEncodeIsTruncation : Obligations.DecodeOfEncodeIsTruncation := fun strict i =>
  ⟨decode_encode strict i, fun h => by rw [decode_encode, Instr.truncate_of_wellFormed h]⟩

/-! ## Where DECODE fails -/

/-- `length` is answered for what spells no word, under both settings of the decoder. -/
theorem decode_eq_length_iff (strict : Bool) (B : List Byte) :
    decode strict B = .error .length ↔ B.length ≠ 6 := by
  rw [← recordWord_eq_none]
  cases hB : recordWord B with
  | none => simp [decode, hB]
  | some W => cases hW : decodeWord strict W <;> simp [decode, hB, hW]

/-- `opcode` is answered for the words the decoder does not take. -/
theorem decode_eq_opcode_iff (strict : Bool) (B : List Byte) :
    decode strict B = .error .opcode ↔ ∃ W, recordWord B = some W ∧ decodeWord strict W = none := by
  cases hB : recordWord B with
  | none => simp [decode, hB]
  | some W => cases hW : decodeWord strict W <;> simp [decode, hB, hW]

/-- The lenient decoder takes every word but those that fail all four tests of R69. -/
theorem decodeWordLenient_eq_none_iff (W : InstrWord) :
    decodeWordLenient W = none ↔
      field W 47 42 ≠ 60 ∧ field W 34 29 ≠ 39 ∧ field W 29 24 ≠ 53 ∧ field W 29 24 ≠ 28 := by
  unfold decodeWordLenient
  split_ifs with hload hread hwrite hrev <;> simp [*]

end Sys2Proof

namespace Sys2Proof.Machine

/-- The failure of a blob is the failure of one of its whole records. -/
theorem decodeRecords_error {strict : Bool} {index k : Nat} {r : DecodeFailure} {B : List Byte}
    (h : decodeRecords strict index B = .error (k, r)) : ∃ R, R.length = 6 ∧ decode strict R = .error r := by
  fun_induction decodeRecords strict index B with
  | case1 index b0 b1 b2 b3 b4 b5 rest r' hr =>
    cases h
    exact ⟨_, rfl, hr⟩
  | case2 index b0 b1 b2 b3 b4 b5 rest i hi e he ih =>
    cases h
    exact ih he
  | case3 => cases h
  | case4 => cases h

/-- The only error LOAD answers is the one its blob fails with. -/
theorem load_error {c : Config} {blob : List Byte} {s : State} {e : Fault} (h : (load c blob s).2 = .error e) :
    ∃ k r, decodeRecords c.strictDecode 0 blob = .error (k, r) ∧ e = .malformedInstruction k r := by
  unfold load at h
  split at h
  · rcases hB : decodeRecords c.strictDecode 0 blob with ⟨k, r⟩ | P <;> rw [hB] at h <;> cases h
    exact ⟨k, r, rfl, rfl⟩
  · cases h

/-- LOAD cuts records of exactly six bytes, so none fails for its length (R105). -/
theorem load_ne_length (c : Config) (blob : List Byte) (s : State) (k : Nat) :
    (load c blob s).2 ≠ .error (.malformedInstruction k .length) := by
  intro h
  obtain ⟨k', r, hB, e⟩ := load_error h
  cases e
  obtain ⟨R, hlen, hR⟩ := decodeRecords_error hB
  exact (decode_eq_length_iff _ _).1 hR hlen

/-- Settles O8: `length` is the failure of what spells no word, `opcode` that of a word no test of R69 takes, and LOAD
decodes whole records only. -/
theorem decodeFailsExactly : Obligations.DecodeFailsExactly := by
  refine ⟨fun B => ⟨decode_eq_length_iff false B, ?_⟩, fun s blob k => load_ne_length hw blob s k⟩
  simp only [decode_eq_opcode_iff, decodeWord_false, decodeWordLenient_eq_none_iff]

/-! ## The bits of BITREV32 -/

/-- A reversal of `n` bits takes bit `k` to bit `n - 1 - k`. -/
theorem testBit_reverseBits {n k : Nat} (h : k < n) (x : Nat) :
    (reverseBits n x).testBit (n - 1 - k) = x.testBit k := by
  induction n generalizing k x with
  | zero => exact absurd h (Nat.not_lt_zero k)
  | succ n ih =>
    rw [reverseBits, Nat.mul_comm, Nat.testBit_two_pow_mul_add _ (reverseBits_lt n (x / 2))]
    cases k with
    | zero => simp
    | succ k =>
      have hk : k < n := Nat.lt_of_succ_lt_succ h
      rw [if_pos (by omega), Nat.testBit_succ, ← ih hk, show n + 1 - 1 - (k + 1) = n - 1 - k by omega]

/-- Settles O12: the reversal at width 32, below which the reduction modulo 2^32 changes no bit. -/
theorem bitRevMovesEachBit : Obligations.BitRevMovesEachBit := by
  intro v k hk
  have hrev : (reverseBits 32 (v % 2 ^ 32)).testBit (31 - k) = (v % 2 ^ 32).testBit k := testBit_reverseBits hk _
  rw [bitRev32, BitVec.getLsbD_ofNat, hrev, Nat.testBit_mod_two_pow]
  simp [hk, show 31 - k < 32 by omega]

end Sys2Proof.Machine
end

