-- ==== Sys2Proof/Proofs/DataMovement.lean ====
section
/-! What LOAD_CONST and WRITE_MEMORY (spec/41_data_movement.md) write and what they leave unchanged (R120, R125). -/

namespace Sys2Proof.Machine

/-! ## A completed instruction: one cell written, `pc` advanced -/

/-- A cell's value after a completed instruction. -/
theorem State.cell_write (c : Config) (s : State) (dest : Nat) (v : Cell) (pc a : Nat) :
    State.cell c { s with mem := Memory.write c s.mem dest v, pc := pc } a = if a = dest then v else s.cell c a :=
  Memory.read_write s.mem dest a v

/-- The frame of a completed instruction (R22). -/
theorem State.sameExcept_write (s : State) (dest : Nat) (v : Cell) (pc : Nat) :
    s.SameExcept dest { s with mem := Memory.write hw s.mem dest v, pc := pc } where
  cells a ha := by rw [State.cell_write, if_neg ha]
  prog := rfl
  phase := rfl
  fault := rfl

/-- From the state an execution ends in to what an instruction's result statement says of it: the value read back,
the next `pc`, the frame. -/
theorem exec_result_of_write {i : Instr} {s : State} {dest : Nat} {v : Cell}
    (h : exec i s = .next { s with mem := Memory.write hw s.mem dest v, pc := s.pc + 1 }) :
    ∃ t, exec i s = .next t ∧ t.cell hw dest = v ∧ t.pc = s.pc + 1 ∧ s.SameExcept dest t :=
  ⟨_, h, by rw [State.cell_write, if_pos rfl], rfl, s.sameExcept_write dest v _⟩

/-! ## LOAD_CONST -/

/-- A 25-bit constant keeps its value in a 32-bit cell (R120). -/
theorem constCell_toNat {const : Nat} (h : const < 2 ^ 25) : (constCell const).toNat = const := by
  rw [constCell, BitVec.toNat_ofNat]
  omega

theorem exec_loadConst {dest : Nat} (hd : dest < 4096) (const : Nat) (s : State) :
    exec (.loadConst dest const) s =
      .next { s with mem := Memory.write hw s.mem dest (constCell const), pc := s.pc + 1 } :=
  loadConst_of_lt (c := hw) hd const s

/-- Settles O14: the cell written is `constCell const`, whose value an in-range constant is. -/
theorem loadConstWritesConstant : Obligations.LoadConstWritesConstant := by
  intro s dest const hwf
  obtain ⟨hd, hconst⟩ := wellFormed_loadConst.1 hwf
  obtain ⟨t, hexec, hcell, hpc, hframe⟩ := exec_result_of_write (exec_loadConst hd const s)
  exact ⟨t, hexec, by rw [hcell, constCell_toNat hconst], hpc, hframe⟩

/-! ## WRITE_MEMORY -/

theorem exec_writeMemory {src dest : Nat} (hs : src < 4096) (hd : dest < 4096) (s : State) :
    exec (.writeMemory src dest) s =
      .next { s with mem := Memory.write hw s.mem dest (s.cell hw src), pc := s.pc + 1 } :=
  writeMemory_of_lt (c := hw) hs hd s

/-- Settles O16: the cell written is the source cell as it was before, also where the two are one. -/
theorem writeMemoryCopiesCell : Obligations.WriteMemoryCopiesCell := by
  intro s src dest hwf
  obtain ⟨hs, hd⟩ := wellFormed_writeMemory.1 hwf
  exact exec_result_of_write (exec_writeMemory hs hd s)

end Sys2Proof.Machine
end

