-- ==== Sys2Proof/Proofs/BitReverse.lean ====
section
/-! What BITREVERSE (spec/42_bitreverse.md) writes and what it leaves unchanged (R140). -/

namespace Sys2Proof.Machine

/-- The reversal of a cell, bit by bit (R108). -/
theorem getLsbD_bitRev32_toNat (x : Cell) {k : Nat} (hk : k < 32) :
    (bitRev32 x.toNat).getLsbD (31 - k) = x.getLsbD k := by
  rw [bitRevMovesEachBit x.toNat k hk, BitVec.testBit_toNat]

theorem exec_bitreverse {dest src : Nat} (hd : dest < 4096) (hs : src < 4096) (s : State) :
    exec (.bitreverse dest src) s =
      .next { s with mem := Memory.write hw s.mem dest (bitRev32 (s.cell hw src).toNat), pc := s.pc + 1 } :=
  bitreverse_of_lt (c := hw) hd hs s

/-- Settles O17: the cell written is BITREV32 of the source cell as it was before, also where the two are one. -/
theorem bitreverseWritesReversedCell : Obligations.BitreverseWritesReversedCell := by
  intro s dest src hwf
  obtain ⟨hd, hs⟩ := wellFormed_bitreverse.1 hwf
  obtain ⟨t, hexec, hcell, hpc, hframe⟩ := exec_result_of_write (exec_bitreverse hd hs s)
  exact ⟨t, hexec, fun k hk => by rw [hcell, getLsbD_bitRev32_toNat _ hk], hpc, hframe⟩

end Sys2Proof.Machine
end

