-- ==== Sys2Proof/Proofs/Controller.lean ====
section
/-! The controller (spec/43_controller.md): the successor of an instruction (R161), the bytes of a blob that are no
record (R152). -/

namespace Sys2Proof.Machine

variable {c : Config} {s t : State}

/-! ## The successor of an instruction -/

/-- R161 for any parameters: of a STEP's cases only the completed instruction has one left and takes no fault. -/
theorem stepVia_execWith_pc (hpc : s.pc < s.prog.length) (h : stepVia (execWith c) s = .next t)
    (hfault : t.phase ≠ .faulted) : t.pc = s.pc + 1 := by
  rcases stepVia_execWith_cases (c := c) s with
    ⟨i, v, -, -, -, e⟩ | ⟨i, a, -, -, -, e⟩ | ⟨-, hend, -⟩ | ⟨-, e⟩
  · rw [e] at h
    cases h
    exact State.haltAtEnd_pc _
  · rw [e] at h
    cases h
    exact absurd (State.takeMemoryFault_phase a s) hfault
  · exact absurd hpc (Nat.not_lt.2 hend)
  · rw [e] at h
    cases h

/-- Settles O28: the step is the parametric STEP at this hardware's parameters. -/
theorem successorIsNextIndex : Obligations.SuccessorIsNextIndex := by
  intro s t hpc h hfault
  unfold step at h
  rw [exec_eq_execWith] at h
  exact stepVia_execWith_pc hpc h hfault

/-! ## The bytes after the last whole record -/

/-- Fewer than six bytes after `n` whole records change nothing of what the records decode to, nor of which one
fails. -/
theorem decodeRecords_append_short (strict : Bool) (index : Nat) {n : Nat} {B tail : List Byte}
    (hB : B.length = 6 * n) (ht : tail.length < 6) :
    decodeRecords strict index (B ++ tail) = decodeRecords strict index B := by
  induction n generalizing index B with
  | zero =>
    obtain rfl := List.length_eq_zero_iff.1 hB
    rw [List.nil_append, decodeRecords_of_short strict index ht]
    rfl
  | succ n ih =>
    have hrecord : (B.take 6).length = 6 := by
      rw [List.length_take]
      omega
    have hrest : (B.drop 6).length = 6 * n := by
      rw [List.length_drop]
      omega
    rw [← List.take_append_drop 6 B, List.append_assoc, decodeRecords_append strict index _ hrecord,
      decodeRecords_append strict index _ hrecord, ih (index + 1) hrest]

/-- R152 for any parameters: the tail adds no record to count against the program store, and none to decode. -/
theorem load_append_short (c : Config) (s : State) {blob tail : List Byte} (hblob : blob.length % 6 = 0)
    (ht : tail.length < 6) : load c (blob ++ tail) s = load c blob s := by
  have hN : (blob ++ tail).length / 6 = blob.length / 6 := by
    rw [List.length_append]
    omega
  have hrecords : blob.length = 6 * (blob.length / 6) := by omega
  unfold load
  rw [hN, decodeRecords_append_short c.strictDecode 0 hrecords ht]

/-- LOAD of no whole record, where it is accepted on this hardware, installs the empty program. -/
theorem load_of_short {blob : List Byte} (h : s.phase.acceptsLoad = true) (hblob : blob.length < 6) :
    load hw blob s = (s.install [], .success) := by
  rw [load_of_accepts blob h, decodeRecords_of_short false 0 hblob]

/-- Settles O33: a tail of fewer than six bytes holds no record, after whole records and by itself. -/
theorem loadIgnoresPartialTail : Obligations.LoadIgnoresPartialTail := fun s _ _ hblob ht =>
  ⟨load_append_short hw s hblob ht, fun hphase => load_of_short ((Phase.acceptsLoad_iff s.phase).2 hphase) ht⟩

end Sys2Proof.Machine
end

