-- ==== Sys2Proof/Proofs/Encoding.lean ====
section
/-! Words and records (spec/30_encoding.md): what DECODE reads from a record (R63 to R65, R69), where a word shows an
opcode's code (R70), and the canonical words, those that ENCODE makes (R72, R107). -/

namespace Sys2Proof

/-- What either decoder takes, the lenient one decodes to the same. -/
theorem decodeWordLenient_of_decodeWord {strict : Bool} {W : InstrWord} {i : Instr}
    (h : decodeWord strict W = some i) : decodeWordLenient W = some i := by
  unfold decodeWord at h
  split at h
  · cases h
  · exact h

/-- Where DECODE succeeds, its input spells a word that decodes. -/
theorem decode_eq_ok_iff (strict : Bool) (B : List Byte) (i : Instr) :
    decode strict B = .ok i ↔ ∃ W, recordWord B = some W ∧ decodeWord strict W = some i := by
  cases hB : recordWord B with
  | none => simp [decode, hB]
  | some W => cases hW : decodeWord strict W <;> simp [decode, hB, hW]

/-- The four tests of R69, each with the operands it reads. -/
theorem decodeWordLenient_cases {W : InstrWord} {i : Instr} (h : decodeWordLenient W = some i) :
    (field W 47 42 = 60 ∧ i = .loadConst (field W 41 30) (field W 29 5)) ∨
      (field W 34 29 = 39 ∧ i = .readMemory (field W 28 17) (field W 16 5) (field W 4 0)) ∨
      (field W 29 24 = 53 ∧ i = .writeMemory (field W 23 12) (field W 11 0)) ∨
      (field W 29 24 = 28 ∧ i = .bitreverse (field W 23 12) (field W 11 0)) := by
  unfold decodeWordLenient at h
  split_ifs at h with hload hread hwrite hrev <;> cases h <;> simp [*]

theorem wellFormed_of_decodeWordLenient {W : InstrWord} {i : Instr} (h : decodeWordLenient W = some i) :
    i.WellFormed := by
  rcases decodeWordLenient_cases h with ⟨-, rfl⟩ | ⟨-, rfl⟩ | ⟨-, rfl⟩ | ⟨-, rfl⟩
  · exact wellFormed_loadConst.2 ⟨field_lt W 41 30, field_lt W 29 5⟩
  · exact wellFormed_readMemory.2 ⟨field_lt W 28 17, field_lt W 16 5, field_lt W 4 0⟩
  · exact wellFormed_writeMemory.2 ⟨field_lt W 23 12, field_lt W 11 0⟩
  · exact wellFormed_bitreverse.2 ⟨field_lt W 23 12, field_lt W 11 0⟩

/-- Settles O9: every operand is read from a field of its own width. -/
theorem decodeReturnsInRange : Obligations.DecodeReturnsInRange := by
  intro strict B i h
  obtain ⟨W, -, hW⟩ := (decode_eq_ok_iff strict B i).1 h
  exact wellFormed_of_decodeWordLenient (decodeWordLenient_of_decodeWord hW)

/-- A record fails to decode for its opcode only: it has six bytes (R105). -/
theorem decode_error_of_length {strict : Bool} {B : List Byte} {r : DecodeFailure} (hB : B.length = 6)
    (h : decode strict B = .error r) : r = .opcode := by
  cases r with
  | length => exact absurd hB ((decode_eq_length_iff strict B).1 h)
  | opcode => rfl


/-! ## The fields of a record -/

/-- The word of a record's bytes, as a number (R8). -/
theorem recordWord_six (b0 b1 b2 b3 b4 b5 : Byte) : ∃ W : InstrWord, recordWord [b0, b1, b2, b3, b4, b5] = some W ∧
    W.toNat = b0.toNat * 2 ^ 40 + b1.toNat * 2 ^ 32 + b2.toNat * 2 ^ 24 + b3.toNat * 2 ^ 16 + b4.toNat * 2 ^ 8
      + b5.toNat := by
  refine ⟨_, rfl, ?_⟩
  rw [BitVec.toNat_ofNat]
  omega

/-- Settles O4: each field of the record's word is the byte formula of its format. -/
theorem recordsDecodeInOrder : Obligations.RecordsDecodeInOrder := by
  intro b0 b1 b2 b3 b4 b5
  obtain ⟨W, hword, hW⟩ := recordWord_six b0 b1 b2 b3 b4 b5
  have hload : field W 47 42 = b0.toNat / 4 := by unfold field; omega
  have hread : field W 34 29 = b1.toNat % 8 * 8 + b2.toNat / 32 := by unfold field; omega
  have hshort : field W 29 24 = b2.toNat % 64 := by unfold field; omega
  have hok : ∀ i, decodeWordLenient W = some i → decode false [b0, b1, b2, b3, b4, b5] = .ok i := fun i hi =>
    (decode_eq_ok_iff false _ i).2 ⟨W, hword, by rwa [decodeWord_false]⟩
  split_ifs with hLoad hRead hWrite hRev
  · refine hok _ ?_
    rw [decodeWordLenient, if_pos (hload.trans hLoad)]
    unfold field
    congr 2 <;> omega
  · refine hok _ ?_
    rw [decodeWordLenient, if_neg (hload ▸ hLoad), if_pos (hread.trans hRead)]
    unfold field
    congr 2 <;> omega
  · refine hok _ ?_
    rw [decodeWordLenient, if_neg (hload ▸ hLoad), if_neg (hread ▸ hRead), if_pos (hshort.trans hWrite)]
    unfold field
    congr 2 <;> omega
  · refine hok _ ?_
    rw [decodeWordLenient, if_neg (hload ▸ hLoad), if_neg (hread ▸ hRead), if_neg (hshort ▸ hWrite),
      if_pos (hshort.trans hRev)]
    unfold field
    congr 2 <;> omega
  · rw [decode_eq_opcode_iff]
    refine ⟨W, hword, ?_⟩
    rw [decodeWord_false, decodeWordLenient_eq_none_iff, hload, hread, hshort]
    exact ⟨hLoad, hRead, hWrite, hRev⟩

/-! ## Codes at their positions -/

/-- Settles O5: a word that passes a test of R69 shows the code tested; an encoded word is its number. -/
theorem encodedWordsDoNotAlias : Obligations.EncodedWordsDoNotAlias := by
  refine ⟨fun W i h => ?_, ?_⟩
  · rw [decodeWord_false] at h
    rcases decodeWordLenient_cases h with ⟨hcode, rfl⟩ | ⟨hcode, rfl⟩ | ⟨hcode, rfl⟩ | ⟨hcode, rfl⟩ <;> exact hcode
  · simp only [field, encodeWord_toNat, Instr.wordNat]
    refine ⟨fun dest const => ?_, fun dest src offset => ⟨?_, ?_⟩, fun src dest => ⟨?_, ?_, ?_⟩,
      fun dest src => ⟨?_, ?_, ?_⟩⟩ <;> omega

/-! ## Canonical words -/

/-- A canonical word is what ENCODE makes of its operand fields. -/
theorem exists_encodeWord_of_ownsCanonical {o : Opcode} {W : InstrWord} (h : o.ownsCanonical W = true) :
    ∃ i : Instr, i.opcode = o ∧ encodeWord i = W := by
  rw [Opcode.ownsCanonical_iff] at h
  have hW := W.isLt
  obtain ⟨i, hi, hnat⟩ : ∃ i : Instr, i.opcode = o ∧ i.wordNat = W.toNat := by
    cases o with
    | loadConst => exact ⟨.loadConst (field W 41 30) (field W 29 5), rfl, by simp only [Instr.wordNat, field]; omega⟩
    | readMemory =>
      exact ⟨.readMemory (field W 28 17) (field W 16 5) (field W 4 0), rfl, by simp only [Instr.wordNat, field]; omega⟩
    | writeMemory =>
      exact ⟨.writeMemory (field W 23 12) (field W 11 0), rfl, by simp only [Instr.wordNat, field]; omega⟩
    | bitreverse =>
      exact ⟨.bitreverse (field W 23 12) (field W 11 0), rfl, by simp only [Instr.wordNat, field]; omega⟩
  exact ⟨i, hi, BitVec.eq_of_toNat_eq ((encodeWord_toNat i).trans hnat)⟩

/-- The canonical words are the encoded ones. -/
theorem isCanonical_iff_exists_encodeWord (W : InstrWord) : isCanonical W = true ↔ ∃ i, encodeWord i = W := by
  constructor
  · intro h
    simp only [isCanonical, Bool.or_eq_true] at h
    rcases h with ((h | h) | h) | h <;> obtain ⟨i, -, hi⟩ := exists_encodeWord_of_ownsCanonical h <;> exact ⟨i, hi⟩
  · rintro ⟨i, rfl⟩
    exact isCanonical_of_ownsCanonical (ownsCanonical_encodeWord i)

/-- Instructions with one word have the same truncation. -/
theorem truncate_eq_of_encodeWord_eq {i j : Instr} (h : encodeWord i = encodeWord j) : i.truncate = j.truncate := by
  have hi := decodeWordLenient_encodeWord i
  rw [h, decodeWordLenient_encodeWord j] at hi
  exact (Option.some.inj hi).symm

@[simp] theorem Instr.opcode_truncate (i : Instr) : i.truncate.opcode = i.opcode := by cases i <;> rfl

/-- A decoded word comes back exactly when it is canonical. -/
theorem encodeWord_eq_iff_isCanonical {W : InstrWord} {i : Instr} (h : decodeWordLenient W = some i) :
    encodeWord i = W ↔ isCanonical W = true := by
  rw [isCanonical_iff_exists_encodeWord]
  refine ⟨fun hi => ⟨i, hi⟩, ?_⟩
  rintro ⟨j, rfl⟩
  rw [decodeWordLenient_encodeWord] at h
  cases h
  exact encodeWord_truncate j

/-- Settles O6: the canonical words are the encoded ones, and an encoded word shows its opcode. -/
theorem canonicalIffReencodes : Obligations.CanonicalIffReencodes := by
  refine ⟨fun W => ⟨fun h => ?_, ?_⟩, fun W o p ho hp => ?_, ownsCanonical_encodeWord⟩
  · obtain ⟨i, rfl⟩ := (isCanonical_iff_exists_encodeWord W).1 h
    exact ⟨i.truncate, decodeWord_encodeWord false i, encodeWord_truncate i⟩
  · rintro ⟨i, -, hi⟩
    exact (isCanonical_iff_exists_encodeWord W).2 ⟨i, hi⟩
  · obtain ⟨i, rfl, hi⟩ := exists_encodeWord_of_ownsCanonical ho
    obtain ⟨j, rfl, hj⟩ := exists_encodeWord_of_ownsCanonical hp
    rw [← i.opcode_truncate, truncate_eq_of_encodeWord_eq (hi.trans hj.symm), Instr.opcode_truncate]

/-- Settles O10: STRICT_DECODE refuses the words that are not canonical and changes nothing for the others. -/
theorem strictDecodeTakesCanonical : Obligations.StrictDecodeTakesCanonical := by
  refine fun W => ⟨⟨fun ⟨i, h⟩ => ?_, fun h => ?_⟩, fun h => ?_⟩
  · by_contra hcanon
    simp [decodeWord, hcanon] at h
  · obtain ⟨i, rfl⟩ := (isCanonical_iff_exists_encodeWord W).1 h
    exact ⟨i.truncate, decodeWord_encodeWord true i⟩
  · rw [decodeWord_of_isCanonical true h, decodeWord_false]

/-- Re-encoding keeps the bits a format assigns and clears the others (R107). -/
theorem encodeWord_eq_and_assignedMask {W : InstrWord} {i : Instr} (h : decodeWordLenient W = some i) :
    encodeWord i = W &&& i.opcode.assignedMask := by
  have hW := W.isLt
  apply BitVec.eq_of_toNat_eq
  rw [encodeWord_toNat, BitVec.toNat_and]
  rcases decodeWordLenient_cases h with ⟨hcode, rfl⟩ | ⟨hcode, rfl⟩ | ⟨hcode, rfl⟩ | ⟨hcode, rfl⟩ <;>
    simp only [Instr.opcode, Opcode.assignedMask, Instr.wordNat, BitVec.toNat_ofNat, field] at hcode ⊢
  · rw [show 0xFFFFFFFFFFE0 % 2 ^ 48 = 2 ^ 48 - 2 ^ 5 by decide, and_high_mask _ _ (by omega) hW]
    omega
  · rw [show 0x0007FFFFFFFF % 2 ^ 48 = 2 ^ 35 - 1 by decide, Nat.and_two_pow_sub_one_eq_mod]
    omega
  · rw [show 0x00003FFFFFFF % 2 ^ 48 = 2 ^ 30 - 1 by decide, Nat.and_two_pow_sub_one_eq_mod]
    omega
  · rw [show 0x00003FFFFFFF % 2 ^ 48 = 2 ^ 30 - 1 by decide, Nat.and_two_pow_sub_one_eq_mod]
    omega

/-- Settles O7: canonical words are encoded ones, so equal truncations are equal words; and WRITE_MEMORY(0, 0) decodes
from a word with bit 30 set as from the one without. -/
theorem reencodeClearsUnassignedBits : Obligations.ReencodeClearsUnassignedBits := by
  simp only [Obligations.ReencodeClearsUnassignedBits, decodeWord_false]
  refine ⟨fun W i h => ⟨encodeWord_eq_and_assignedMask h, encodeWord_eq_iff_isCanonical h⟩, fun W V hW hV h => ?_,
    0x000035000000#48, 0x000075000000#48, by decide, by decide, by decide⟩
  obtain ⟨i, rfl⟩ := (isCanonical_iff_exists_encodeWord W).1 hW
  obtain ⟨j, rfl⟩ := (isCanonical_iff_exists_encodeWord V).1 hV
  rw [decodeWordLenient_encodeWord, decodeWordLenient_encodeWord] at h
  rw [← encodeWord_truncate i, Option.some.inj h, encodeWord_truncate]

/-! ## Sample records, the raw form -/

/-- Settles O1: each record is the encoding of its in-range instruction, so DECODE gives that back. -/
theorem sampleRecordsDecode : Obligations.SampleRecordsDecode := by
  intro p hp
  have hencode : encode p.2 = p.1 := by revert p; decide
  have hwf : p.2.WellFormed := by revert p; decide
  exact ⟨fun strict => hencode ▸ (decodeOfEncodeIsTruncation strict p.2).2 hwf, hencode⟩

/-- An operand list of the arity's length is an instruction of the opcode; one of any other length is none. -/
theorem Opcode.build_cases (o : Opcode) (operands : List Nat) :
    (operands.length = o.arity ∧ ∃ i, o.build operands = some i ∧ i.opcode = o) ∨
      (operands.length ≠ o.arity ∧ o.build operands = none) := by
  unfold Opcode.build
  split
  · exact .inl ⟨rfl, _, rfl, rfl⟩
  · exact .inl ⟨rfl, _, rfl, rfl⟩
  · exact .inl ⟨rfl, _, rfl, rfl⟩
  · exact .inl ⟨rfl, _, rfl, rfl⟩
  · rename_i hload hread hwrite hrev
    refine .inr ⟨fun hlen => ?_, rfl⟩
    cases o with
    | loadConst =>
      obtain ⟨a, b, rfl⟩ := List.length_eq_two.1 hlen
      exact hload a b rfl rfl
    | readMemory =>
      obtain ⟨a, b, d, rfl⟩ := List.length_eq_three.1 hlen
      exact hread a b d rfl rfl
    | writeMemory =>
      obtain ⟨a, b, rfl⟩ := List.length_eq_two.1 hlen
      exact hwrite a b rfl rfl
    | bitreverse =>
      obtain ⟨a, b, rfl⟩ := List.length_eq_two.1 hlen
      exact hrev a b rfl rfl

/-- Settles O11: the raw form fails exactly where its operand list builds no instruction. -/
theorem rawEncodeFailsOnlyOnArity : Obligations.RawEncodeFailsOnlyOnArity := by
  refine ⟨⟨rfl, rfl, rfl, rfl⟩, fun a b c => ⟨rfl, rfl, rfl, rfl⟩, fun o operands => ?_⟩
  rcases o.build_cases operands with ⟨hlen, i, hi, ho⟩ | ⟨hlen, hi⟩
  · exact ⟨fun _ => ⟨i, hi, ho, by rw [encodeRaw, hi]⟩, fun h => absurd hlen h⟩
  · exact ⟨fun h => absurd h hlen, fun _ => by rw [encodeRaw, hi]⟩

end Sys2Proof
end

