-- ==== Sys2Proof/Proofs/Load.lean ====
section
/-! LOAD record by record (spec/43_controller.md section 2): record `k` of a blob is its bytes `6k` to `6k + 5`, and
the program is what the records decode to (R151, R153). -/

namespace Sys2Proof.Machine

variable {c : Config} {s t : State} {strict : Bool}

/-! ## The records of a blob -/

/-- Record `k` of a blob. -/
def record (blob : List Byte) (k : Nat) : List Byte := (blob.drop (6 * k)).take 6

theorem record_length {blob : List Byte} {k : Nat} (h : k < blob.length / 6) : (record blob k).length = 6 := by
  simp only [record, List.length_take, List.length_drop]
  omega

/-- The records after the first are those of the rest of the blob. -/
theorem record_succ (b0 b1 b2 b3 b4 b5 : Byte) (rest : List Byte) (k : Nat) :
    record (b0 :: b1 :: b2 :: b3 :: b4 :: b5 :: rest) (k + 1) = record rest k := rfl

/-- A blob that decodes gives an instruction a record, each what its record decodes to. -/
theorem decodeRecords_ok {index : Nat} {blob : List Byte} {P : List Instr}
    (h : decodeRecords strict index blob = .ok P) :
    P.length = blob.length / 6 ∧ ∀ k i, P[k]? = some i → decode strict (record blob k) = .ok i := by
  fun_induction decodeRecords strict index blob generalizing P with
  | case1 => cases h
  | case2 => cases h
  | case3 index b0 b1 b2 b3 b4 b5 rest i hi is his ih =>
    cases h
    obtain ⟨hlen, hrec⟩ := ih his
    refine ⟨by simp only [List.length_cons, hlen]; omega, fun k j hj => ?_⟩
    cases k with
    | zero => cases hj; exact hi
    | succ k => rw [record_succ]; exact hrec k j hj
  | case4 blob index hshort =>
    cases h
    have hlen : blob.length < 6 := by
      match blob with
      | [] | [_] | [_, _] | [_, _, _] | [_, _, _, _] | [_, _, _, _, _] => simp
      | b0 :: b1 :: b2 :: b3 :: b4 :: b5 :: rest => exact absurd rfl (hshort b0 b1 b2 b3 b4 b5 rest)
    exact ⟨(Nat.div_eq_of_lt hlen).symm, fun k j hj => by cases hj⟩

/-- A blob that does not decode fails at its first record that does not (R153). -/
theorem decodeRecords_error_first {index m : Nat} {blob : List Byte} {r : DecodeFailure}
    (h : decodeRecords strict index blob = .error (m, r)) :
    ∃ k, m = index + k ∧ k < blob.length / 6 ∧ decode strict (record blob k) = .error r ∧
      ∀ j < k, ∃ i, decode strict (record blob j) = .ok i := by
  fun_induction decodeRecords strict index blob with
  | case1 index b0 b1 b2 b3 b4 b5 rest r' hr =>
    cases h
    refine ⟨0, rfl, ?_, hr, fun j hj => absurd hj (Nat.not_lt_zero j)⟩
    simp only [List.length_cons]
    omega
  | case2 index b0 b1 b2 b3 b4 b5 rest i hi e he ih =>
    cases h
    obtain ⟨k, rfl, hk, hrec, hbefore⟩ := ih he
    refine ⟨k + 1, by omega, by simp only [List.length_cons]; omega, hrec, fun j hj => ?_⟩
    cases j with
    | zero => exact ⟨i, hi⟩
    | succ j => exact hbefore j (Nat.lt_of_succ_lt_succ hj)
  | case3 => cases h
  | case4 => cases h

/-- Where every record decodes, so does the blob. -/
theorem decodeRecords_of_all_ok (index : Nat) {blob : List Byte}
    (h : ∀ k < blob.length / 6, ∃ i, decode strict (record blob k) = .ok i) :
    ∃ P, decodeRecords strict index blob = .ok P := by
  rcases hB : decodeRecords strict index blob with ⟨m, r⟩ | P
  · obtain ⟨k, -, hk, hr, -⟩ := decodeRecords_error_first hB
    obtain ⟨i, hi⟩ := h k hk
    cases hr.symm.trans hi
  · exact ⟨P, rfl⟩

/-- Where record `k` is the first that does not decode, the blob fails there. -/
theorem decodeRecords_of_first_error (index : Nat) {k : Nat} {blob : List Byte} {r : DecodeFailure}
    (hk : k < blob.length / 6) (hr : decode strict (record blob k) = .error r)
    (hbefore : ∀ j < k, ∃ i, decode strict (record blob j) = .ok i) :
    decodeRecords strict index blob = .error (index + k, r) := by
  rcases hB : decodeRecords strict index blob with ⟨m, r'⟩ | P
  · obtain ⟨k', rfl, -, hr', hbefore'⟩ := decodeRecords_error_first hB
    rcases Nat.lt_trichotomy k k' with hlt | rfl | hgt
    · obtain ⟨i, hi⟩ := hbefore' k hlt
      cases hr.symm.trans hi
    · cases hr.symm.trans hr'
      rfl
    · obtain ⟨i, hi⟩ := hbefore k' hgt
      cases hr'.symm.trans hi
  · obtain ⟨hlen, hrec⟩ := decodeRecords_ok hB
    cases hr.symm.trans (hrec k _ (List.getElem?_eq_getElem (hlen ▸ hk)))

/-- What a blob decodes to is in range. -/
theorem decodeRecords_wellFormed {index : Nat} {blob : List Byte} {P : List Instr}
    (h : decodeRecords strict index blob = .ok P) : ∀ i ∈ P, i.WellFormed := by
  intro i hi
  obtain ⟨k, hk⟩ := List.mem_iff_getElem?.1 hi
  exact decodeReturnsInRange strict _ i ((decodeRecords_ok h).2 k i hk)

/-- The blob of a program's records decodes to the program, each operand reduced to its field (R106). -/
theorem decodeRecords_flatMap_encode (strict : Bool) (index : Nat) (P : List Instr) :
    decodeRecords strict index (P.flatMap encode) = .ok (P.map Instr.truncate) := by
  induction P generalizing index with
  | nil => rfl
  | cons i P ih =>
    rw [List.flatMap_cons, decodeRecords_append strict index _ (encode_length i), decode_encode, ih]
    rfl

/-! ## The transaction -/

/-- All that LOAD can do, for any parameters: install what the records decode to, fail at the first that does not
decode, or be refused. -/
theorem load_cases (c : Config) (blob : List Byte) (s : State) :
    (s.phase.acceptsLoad = true ∧ ∃ P, decodeRecords c.strictDecode 0 blob = .ok P ∧
        c.holds P.length = true ∧ load c blob s = (s.install P, .success)) ∨
      (s.phase.acceptsLoad = true ∧ ∃ k, decodeRecords c.strictDecode 0 blob = .error (k, .opcode) ∧
        load c blob s = (s.failLoad k .opcode, .error (.malformedInstruction k .opcode))) ∨
      load c blob s = (s, .refused) := by
  unfold load
  split
  · rename_i hacc
    obtain ⟨hphase, hholds⟩ := Bool.and_eq_true_iff.1 hacc
    rcases hB : decodeRecords c.strictDecode 0 blob with ⟨k, r⟩ | P
    · obtain ⟨R, hlen, hR⟩ := decodeRecords_error hB
      obtain rfl := decode_error_of_length hlen hR
      exact .inr (.inl ⟨hphase, k, rfl, rfl⟩)
    · exact .inl ⟨hphase, P, rfl, by rwa [(decodeRecords_ok hB).1], rfl⟩
  · exact .inr (.inr rfl)

theorem load_of_not_accepts (c : Config) (blob : List Byte) (h : s.phase.acceptsLoad = false) :
    load c blob s = (s, .refused) := by
  simp [load, h]

theorem load_of_decodeRecords_ok {blob : List Byte} {P : List Instr} (h : s.phase.acceptsLoad = true)
    (hB : decodeRecords false 0 blob = .ok P) : load hw blob s = (s.install P, .success) := by
  rw [load_of_accepts blob h, hB]

/-- Settles O32: the records of the blob decide, all of them or the first that does not decode. -/
theorem loadDecodesWholeBlob : Obligations.LoadDecodesWholeBlob := by
  intro s blob
  refine ⟨fun hphase => load_of_not_accepts hw blob ?_, fun hphase => ?_⟩
  · rcases hphase with hp | hp <;> rw [hp] <;> rfl
  have hacc : s.phase.acceptsLoad = true := (Phase.acceptsLoad_iff s.phase).2 hphase
  refine ⟨fun hall => ?_, fun k reason hk hr hbefore => ?_⟩
  · obtain ⟨P, hP⟩ := decodeRecords_of_all_ok 0 hall
    exact ⟨P, load_of_decodeRecords_ok hacc hP, decodeRecords_ok hP⟩
  · obtain rfl := decode_error_of_length (record_length hk) hr
    refine ⟨rfl, (load_of_accepts blob hacc).trans ?_⟩
    rw [decodeRecords_of_first_error 0 hk hr hbefore, Nat.zero_add]
    rfl

end Sys2Proof.Machine
end

