-- ==== Sys2Proof/Proofs/Invariant.lean ====
section
/-! The machine's invariant (spec/10_state.md sections 1 to 5): RESET meets it, every STEP and every transaction keeps
it, for any parameters. -/

namespace Sys2Proof.Machine

variable {c : Config} {s t : State}

/-! ## Phase by phase -/

/-- Before a STEP that is accepted, `pc` is in its range and no fault is recorded. -/
theorem State.PhaseOk.of_acceptsStep (h : s.PhaseOk c) (hp : s.phase.acceptsStep = true) :
    (s.pc = 0 ∨ s.pc < s.prog.length) ∧ s.fault = none := by
  unfold State.PhaseOk at h
  rcases (Phase.acceptsStep_iff _).1 hp with hp | hp <;> rw [hp] at h
  · obtain ⟨hpc, hfault⟩ := h
    exact ⟨.inl hpc, hfault⟩
  · obtain ⟨-, hpc, hfault⟩ := h
    exact ⟨.inr hpc, hfault⟩

/-- The end of a STEP in Running with no fault: Halted at the program's end, Running before it (R158). -/
theorem State.phaseOk_haltAtEnd (hp : s.phase = .running) (hfault : s.fault = none)
    (hpc : s.pc = s.prog.length ∨ 0 < s.pc ∧ s.pc < s.prog.length) : s.haltAtEnd.PhaseOk c := by
  have hphase : s.haltAtEnd.phase = if s.pc = s.prog.length then .halted else .running := by
    rw [State.haltAtEnd_phase, hp, if_neg (by decide)]
  unfold State.PhaseOk
  rw [hphase]
  rcases hpc with hend | ⟨hpos, hlt⟩
  · rw [if_pos hend]
    exact ⟨by simpa using hend, by simpa using hfault⟩
  · rw [if_neg (Nat.ne_of_lt hlt)]
    exact ⟨by simpa using hpos, by simpa using hlt, by simpa using hfault⟩

/-! ## RESET -/

theorem Config.holds_zero (c : Config) : c.holds 0 = true := by
  unfold Config.holds
  split <;> simp

theorem State.inv_reset (c : Config) : State.reset.Inv c where
  memory := Memory.wf_nil
  program := List.forall_mem_nil _
  bounded := Config.holds_zero c
  phase := ⟨rfl, rfl, rfl⟩

/-- Settles O44: nothing is listed, loaded or recorded. -/
theorem resetSatisfiesInvariant : Obligations.ResetSatisfiesInvariant := State.inv_reset

/-! ## STEP -/

/-- Every STEP keeps the invariant: one of its instruction, its MemoryFault, or halting with nothing left. -/
theorem stepVia_execWith_inv (hs : s.Inv c) (h : stepVia (execWith c) s = .next t) : t.Inv c := by
  obtain ⟨hmem, hprog, hbound, hphase⟩ := hs
  rcases stepVia_execWith_cases (c := c) s with
    ⟨i, v, hp, hi, hdest, e⟩ | ⟨i, a, hp, hi, ha, e⟩ | ⟨hp, hend, e⟩ | ⟨-, e⟩ <;> rw [e] at h <;> cases h
  · obtain ⟨hlt, -⟩ := List.getElem?_eq_some_iff.1 hi
    refine ⟨?_, ?_, ?_, State.phaseOk_haltAtEnd rfl (hphase.of_acceptsStep hp).2 ?_⟩
    · rw [State.haltAtEnd_mem]
      exact Memory.wf_write v hdest hmem
    · rw [State.haltAtEnd_prog]
      exact hprog
    · rw [State.haltAtEnd_prog]
      exact hbound
    · change s.pc + 1 = s.prog.length ∨ 0 < s.pc + 1 ∧ s.pc + 1 < s.prog.length
      omega
  · obtain ⟨hlt, -⟩ := List.getElem?_eq_some_iff.1 hi
    exact ⟨hmem, hprog, hbound, rfl, hlt, ha⟩
  · have hpc : s.pc = s.prog.length := by
      rcases (hphase.of_acceptsStep hp).1 with h0 | hlt <;> omega
    refine ⟨?_, ?_, ?_, State.phaseOk_haltAtEnd rfl (hphase.of_acceptsStep hp).2 (.inl hpc)⟩
    · rwa [State.haltAtEnd_mem]
    · rwa [State.haltAtEnd_prog]
    · rwa [State.haltAtEnd_prog]

/-- Settles O45: the step is the parametric STEP at this hardware's parameters. -/
theorem stepKeepsInvariant : Obligations.StepKeepsInvariant := by
  intro s t hs h
  unfold step at h
  rw [exec_eq_execWith] at h
  exact stepVia_execWith_inv hs h

/-! ## The transactions -/

theorem stepTransaction_execWith_inv (hs : s.Inv c) : (stepTransaction (execWith c) s).1.Inv c :=
  stepTransaction_preserves hs fun _ => stepVia_execWith_inv hs

/-- LOAD leaves memory alone and sets everything the phase speaks of. -/
theorem load_inv (hs : s.Inv c) (blob : List Byte) : (load c blob s).1.Inv c := by
  rcases load_cases c blob s with ⟨-, P, hB, hholds, e⟩ | ⟨-, k, -, e⟩ | e <;> rw [e]
  · exact ⟨hs.memory, decodeRecords_wellFormed hB, hholds, rfl, rfl⟩
  · exact ⟨hs.memory, List.forall_mem_nil _, Config.holds_zero c, rfl, rfl, rfl⟩
  · exact hs

/-- Settles O46: RUN keeps what each of its STEPs keeps. -/
theorem transactionsKeepInvariant : Obligations.TransactionsKeepInvariant := by
  intro c s r hs
  cases r with
  | reset => exact State.inv_reset c
  | load blob => exact load_inv hs blob
  | step => exact stepTransaction_execWith_inv hs
  | run => exact run_preserves (fun _ => stepTransaction_execWith_inv) hs
  | dump first last => exact hs

end Sys2Proof.Machine
end

