-- ==== Sys2Proof/Proofs/CellArray.lean ====
section
/-! Memory's canonical form (spec/20_memory.md; log entry 1): what a listing reads as determines it, so that writing
a cell's own value back changes nothing. -/

namespace Sys2Proof.Machine

variable {c : Config}

/-- The entry a canonical listing begins with reads as no unlisted cell does. -/
theorem Memory.read_head_ne {lo : Nat} {e : Nat × Cell} {m : Memory} (h : Memory.wfFrom c lo (e :: m) = true) :
    Memory.read c (e :: m) e.1 ≠ c.memInit e.1 := by
  obtain ⟨-, -, hne, -⟩ := (Memory.wfFrom_cons ..).1 h
  rwa [Memory.read, Memory.find_cons, if_pos rfl]

/-- Before its first entry a canonical listing reads as reset memory. -/
theorem Memory.read_before_head {lo a : Nat} {e : Nat × Cell} {m : Memory}
    (h : Memory.wfFrom c lo (e :: m) = true) (ha : a < e.1) : Memory.read c (e :: m) a = c.memInit a := by
  obtain ⟨-, hlt, hne, htail⟩ := (Memory.wfFrom_cons ..).1 h
  exact Memory.find_of_lt ((Memory.wfFrom_cons ..).2 ⟨Nat.le_refl _, hlt, hne, htail⟩) ha

/-- The first entries of canonical listings that read alike are at one address: the lower one is listed in both. -/
theorem Memory.head_le_of_read_eq {lo lo' : Nat} {e e' : Nat × Cell} {m m' : Memory}
    (h : Memory.wfFrom c lo (e :: m) = true) (h' : Memory.wfFrom c lo' (e' :: m') = true)
    (hread : ∀ a < c.memSize, Memory.read c (e :: m) a = Memory.read c (e' :: m') a) : e'.1 ≤ e.1 := by
  by_contra hlt
  obtain ⟨-, hsize, -, -⟩ := (Memory.wfFrom_cons ..).1 h
  exact Memory.read_head_ne h ((hread e.1 hsize).trans (Memory.read_before_head h' (Nat.not_le.1 hlt)))

theorem Memory.eq_of_read_eq {m m' : Memory} : ∀ {lo lo' : Nat}, Memory.wfFrom c lo m = true →
    Memory.wfFrom c lo' m' = true → (∀ a < c.memSize, Memory.read c m a = Memory.read c m' a) → m = m' := by
  induction m generalizing m' with
  | nil =>
    intro lo lo' _ h' hread
    cases m' with
    | nil => rfl
    | cons e' m' =>
      obtain ⟨-, hsize, -, -⟩ := (Memory.wfFrom_cons ..).1 h'
      exact absurd (hread e'.1 hsize).symm (Memory.read_head_ne h')
  | cons e m ih =>
    intro lo lo' h h' hread
    obtain ⟨-, hsize, -, htail⟩ := (Memory.wfFrom_cons ..).1 h
    cases m' with
    | nil => exact absurd (hread e.1 hsize) (Memory.read_head_ne h)
    | cons e' m' =>
      obtain ⟨-, -, -, htail'⟩ := (Memory.wfFrom_cons ..).1 h'
      have haddr : e.1 = e'.1 := Nat.le_antisymm
        (Memory.head_le_of_read_eq h' h fun a ha => (hread a ha).symm) (Memory.head_le_of_read_eq h h' hread)
      have hvalue : e.2 = e'.2 := by
        have := hread e.1 hsize
        rwa [Memory.read, Memory.read, Memory.find_cons, Memory.find_cons, if_pos rfl, if_pos haddr.symm] at this
      have hrest : ∀ a < c.memSize, Memory.read c m a = Memory.read c m' a := by
        intro a ha
        rcases Nat.lt_or_ge e.1 a with hgt | hle
        · have := hread a ha
          rwa [Memory.read, Memory.read, Memory.find_cons, Memory.find_cons, if_neg (by omega),
            if_neg (by omega)] at this
        · exact (Memory.find_of_lt htail (by omega)).trans (Memory.find_of_lt htail' (by omega)).symm
      rw [Prod.ext haddr hvalue, ih htail htail' hrest]

/-- Settles O24: by induction on the listings, first entry by first entry. -/
theorem canonicalMemoriesAgree : Obligations.CanonicalMemoriesAgree := fun _ _ _ h h' hread =>
  Memory.eq_of_read_eq h h' hread

/-- Writing back what a cell holds changes nothing. -/
theorem Memory.write_read_self {m : Memory} {a : Nat} (ha : a < c.memSize) (h : Memory.wf c m = true) :
    Memory.write c m a (Memory.read c m a) = m := by
  refine Memory.eq_of_read_eq (Memory.wf_write _ ha h) h fun b _ => ?_
  rw [Memory.read_write]
  split
  · rename_i hb
    rw [hb]
  · rfl

/-- Settles O18: the write of the copied cell is a write of what the cell holds. -/
theorem selfCopyChangesOnlyPc : Obligations.SelfCopyChangesOnlyPc := by
  intro s a h ha
  rw [exec_writeMemory ha ha, State.cell, Memory.write_read_self (c := hw) ha h]

end Sys2Proof.Machine
end

