-- ==== Sys2Proof/Proofs/BitReversal.lean ====
section
/-! BITREV32 undoes itself (R109), and with it BITREVERSE in place (R141(c)). -/

namespace Sys2Proof.Machine

theorem getLsbD_bitRev32 (x : Cell) {k : Nat} (hk : k < 32) :
    (bitRev32 x.toNat).getLsbD k = x.getLsbD (31 - k) := by
  have h := getLsbD_bitRev32_toNat x (k := 31 - k) (by omega)
  rwa [Nat.sub_sub_self (by omega)] at h

theorem bitRev32_bitRev32 (x : Cell) : bitRev32 (bitRev32 x.toNat).toNat = x := by
  apply BitVec.eq_of_getLsbD_eq
  intro k hk
  rw [getLsbD_bitRev32 _ hk, getLsbD_bitRev32_toNat _ hk]

/-- Counting over the bit positions backwards counts the same. -/
theorem countP_range_reflect (p : Nat → Bool) :
    (List.range 32).countP (fun k => p (31 - k)) = (List.range 32).countP p := by
  have hreverse : (List.range 32).map (fun k => 31 - k) = (List.range 32).reverse := by decide
  rw [← List.countP_reverse (l := List.range 32), ← hreverse, List.countP_map]
  rfl

/-- Settles O13: every clause is read off the bits. -/
theorem bitRevIsInvolution : Obligations.BitRevIsInvolution := by
  refine ⟨bitRev32_bitRev32, Function.Involutive.bijective bitRev32_bitRev32, fun x => ?_, fun x => ⟨?_, ?_⟩,
    by decide⟩
  · rw [← countP_range_reflect]
    exact List.countP_congr fun k hk => by rw [getLsbD_bitRev32_toNat x (List.mem_range.1 hk)]
  · intro h k hk
    rw [← getLsbD_bitRev32 x hk, h]
  · intro h
    apply BitVec.eq_of_getLsbD_eq
    intro k hk
    rw [getLsbD_bitRev32 x hk, h k hk]

/-- Settles O19: the second reversal writes the cell's first value back. -/
theorem inPlaceReversalTwiceRestores : Obligations.InPlaceReversalTwiceRestores := by
  intro s a ha
  refine ⟨_, _, exec_bitreverse ha ha s, exec_bitreverse ha ha _, rfl, ?_, ?_, rfl, rfl, rfl⟩
  · rw [State.cell_write, if_pos rfl, State.cell_write, if_pos rfl, bitRev32_bitRev32]
  · intro b hb
    rw [State.cell_write, if_neg hb, State.cell_write, if_neg hb]

end Sys2Proof.Machine
end

