-- ==== Sys2Proof/Proofs/Instructions.lean ====
section
/-! The four instructions together: what executing one is in the document's semantics, what it leaves unchanged (R22),
which faults it can take and in what order it checks its addresses (R126, R172). -/

namespace Sys2Proof.Machine

variable {c : Config} {s t : State} {i : Instr}

/-! ## An in-range instruction is its assignment -/

theorem exec_readMemory_of_lt {dest src offset : Nat} (hd : dest < 4096) (hs : src < 4096)
    (he : (s.cell hw src).toNat + offset < 4096) :
    exec (.readMemory dest src offset) s = .next { s with
      mem := Memory.write hw s.mem dest (s.cell hw ((s.cell hw src).toNat + offset))
      pc := s.pc + 1 } :=
  readMemory_of_lt (c := hw) hd hs he

theorem exec_readMemory_of_le {src offset : Nat} (dest : Nat) (hs : src < 4096)
    (he : 4096 ≤ (s.cell hw src).toNat + offset) :
    exec (.readMemory dest src offset) s = .next (s.takeMemoryFault ((s.cell hw src).toNat + offset)) :=
  readMemory_of_le (c := hw) dest hs he

/-- Settles O15: the write of the indirect cell, or the fault of its address. -/
theorem readMemoryCopiesIndirectCell : Obligations.ReadMemoryCopiesIndirectCell := by
  intro s dest src offset hwf
  obtain ⟨hd, hs, -⟩ := wellFormed_readMemory.1 hwf
  exact ⟨fun he => exec_result_of_write (exec_readMemory_of_lt hd hs he),
    fun he => ⟨_, exec_readMemory_of_le dest hs he, rfl, rfl⟩⟩

/-- The cells after a write are the document's assignment to them. -/
theorem State.cell_write_eq_assign (c : Config) (s : State) (dest : Nat) (v : Cell) (pc : Nat) :
    State.cell c { s with mem := Memory.write c s.mem dest v, pc := pc } = assign (s.cell c) dest v :=
  funext fun a => State.cell_write c s dest v pc a

/-- `exec` of `i` in `s` does what the document's assignment says: the cells assigned, `pc` advanced and nothing else
changed. -/
def Assigns (i : Instr) (s : State) : Prop :=
  ∃ t, exec i s = .next t ∧ instrMeaning 4096 (s.cell hw) i = .ok (t.cell hw) ∧ t.pc = s.pc + 1 ∧
    s.SameExcept i.dest t

/-- `exec` of `i` in `s` takes the MemoryFault that the document's assignment reports: `i` is a READ_MEMORY whose
computed index is `a`, out of range. -/
def Overruns (i : Instr) (s : State) (a : Nat) : Prop :=
  exec i s = .next (s.takeMemoryFault a) ∧ instrMeaning 4096 (s.cell hw) i = .error a ∧
    ∃ dest src offset, i = .readMemory dest src offset ∧ a = (s.cell hw src).toNat + offset ∧ 4096 ≤ a

theorem assigns_of_write {v : Cell}
    (hexec : exec i s = .next { s with mem := Memory.write hw s.mem i.dest v, pc := s.pc + 1 })
    (hmeaning : instrMeaning 4096 (s.cell hw) i = .ok (assign (s.cell hw) i.dest v)) : Assigns i s :=
  ⟨_, hexec, by rw [hmeaning, State.cell_write_eq_assign], rfl, s.sameExcept_write i.dest v _⟩

/-- Executing an in-range instruction is the document's assignment, or its fault. -/
theorem exec_meaning (hwf : i.WellFormed) (s : State) : Assigns i s ∨ ∃ a, Overruns i s a := by
  cases i with
  | loadConst dest const =>
    obtain ⟨hd, -⟩ := wellFormed_loadConst.1 hwf
    exact .inl (assigns_of_write (exec_loadConst hd const s) rfl)
  | readMemory dest src offset =>
    obtain ⟨hd, hs, -⟩ := wellFormed_readMemory.1 hwf
    rcases Nat.lt_or_ge ((s.cell hw src).toNat + offset) 4096 with he | he
    · exact .inl (assigns_of_write (exec_readMemory_of_lt hd hs he) (if_pos he))
    · exact .inr ⟨_, exec_readMemory_of_le dest hs he, if_neg (Nat.not_lt.2 he), dest, src, offset, rfl, rfl, he⟩
  | writeMemory src dest =>
    obtain ⟨hs, hd⟩ := wellFormed_writeMemory.1 hwf
    exact .inl (assigns_of_write (exec_writeMemory hs hd s) rfl)
  | bitreverse dest src =>
    obtain ⟨hd, hs⟩ := wellFormed_bitreverse.1 hwf
    exact .inl (assigns_of_write (exec_bitreverse hd hs s) rfl)

/-- Settles O22: an assignment keeps the phase, and has no computed index out of range. -/
theorem onlyReadMemoryFaults : Obligations.OnlyReadMemoryFaults := by
  intro i s hwf hphase
  rcases exec_meaning hwf s with ⟨u, hu, hmeaning, -, hframe⟩ | ⟨a, hexec, -, dest, src, offset, rfl, rfl, ha⟩
  · have hok : ∀ t, exec i s = .next t → t.phase ≠ .faulted := by
      intro t ht
      rw [hu] at ht
      cases ht
      rwa [hframe.phase]
    refine ⟨⟨fun ⟨t, ht, hf⟩ => absurd hf (hok t ht), ?_⟩, fun t _ _ _ ht hf => absurd hf (hok t ht)⟩
    rintro ⟨dest, src, offset, rfl, ha⟩
    rw [instrMeaning, if_neg (Nat.not_lt.2 ha)] at hmeaning
    cases hmeaning
  · refine ⟨⟨fun _ => ⟨dest, src, offset, rfl, ha⟩, fun _ => ⟨_, hexec, rfl⟩⟩, fun t dest' src' offset' ht _ hi => ?_⟩
    rw [hexec] at ht
    cases ht
    cases hi
    rfl

/-! ## The size of cells -/

/-- Every cell is below `2^25`. -/
def SmallCells (M : Nat → Cell) : Prop := ∀ a, (M a).toNat < 33554432

theorem SmallCells.assign {M : Nat → Cell} (hM : SmallCells M) {v : Cell} (hv : v.toNat < 33554432) (a : Nat) :
    SmallCells (assign M a v) := by
  intro b
  unfold Machine.assign
  split
  · exact hv
  · exact hM b

/-- An assignment of a 25-bit constant or of another cell makes no cell large (R141(e)). -/
theorem SmallCells.instrMeaning {M M' : Nat → Cell} {size : Nat} (hM : SmallCells M) (hwf : i.WellFormed)
    (hrev : ∀ dest src, i ≠ .bitreverse dest src) (h : instrMeaning size M i = .ok M') : SmallCells M' := by
  cases i with
  | loadConst dest const =>
    cases h
    exact hM.assign ((constCell_toNat (wellFormed_loadConst.1 hwf).2).trans_lt (wellFormed_loadConst.1 hwf).2) dest
  | readMemory dest src offset =>
    rw [Machine.instrMeaning] at h
    split at h <;> cases h
    exact hM.assign (hM _) dest
  | writeMemory src dest =>
    cases h
    exact hM.assign (hM src) dest
  | bitreverse dest src => exact absurd rfl (hrev dest src)

/-- Settles O23: the cells after the step are the assigned ones, or those before it. -/
theorem onlyBitreverseMakesLargeCells : Obligations.OnlyBitreverseMakesLargeCells := by
  intro i s t hwf hsmall hrev ht
  rcases exec_meaning hwf s with ⟨u, hu, hmeaning, -, -⟩ | ⟨a, hexec, -, -⟩
  · rw [hu] at ht
    cases ht
    exact SmallCells.instrMeaning hsmall hwf hrev hmeaning
  · rw [hexec] at ht
    cases ht
    exact hsmall

/-! ## Any operands -/

/-- Settles O20: a completed instruction writes its destination cell, a faulting one none. -/
theorem instructionWritesOneCell : Obligations.InstructionWritesOneCell := by
  intro i s
  rcases exec_cases i s with ⟨v, -, h⟩ | ⟨a, ha, h⟩
  · refine ⟨_, h, rfl, fun b hb => ?_, .inl ⟨rfl, rfl, rfl⟩⟩
    rw [State.cell_write, if_neg hb]
  · exact ⟨_, h, rfl, fun _ _ => rfl, .inr ⟨a, ha, rfl⟩⟩

/-- An invalid destination is reported once the source operand has a value (R126). -/
theorem writeDest_ok_of_le {dest : Nat} (h : c.memSize ≤ dest) (x : Cell) (s : State) :
    writeDest c dest (.ok x) s = .error dest :=
  memWrite_of_le h x s

theorem execWith_writeMemory_of_src_le {src : Nat} (h : c.memSize ≤ src) (dest : Nat) (s : State) :
    execWith c (.writeMemory src dest) s = .next (s.takeMemoryFault src) := by
  rw [execWith, writeMemory, directCell, memRead_of_le h]
  rfl

theorem execWith_writeMemory_of_dest_le {src dest : Nat} (hs : src < c.memSize) (hd : c.memSize ≤ dest) (s : State) :
    execWith c (.writeMemory src dest) s = .next (s.takeMemoryFault dest) := by
  rw [execWith, writeMemory, directCell, memRead_of_lt hs, writeDest_ok_of_le hd, complete_error]

theorem execWith_bitreverse_of_src_le {src : Nat} (h : c.memSize ≤ src) (dest : Nat) (s : State) :
    execWith c (.bitreverse dest src) s = .next (s.takeMemoryFault src) := by
  rw [execWith, bitreverse, directCell, memRead_of_le h]
  rfl

theorem execWith_bitreverse_of_dest_le {src dest : Nat} (hs : src < c.memSize) (hd : c.memSize ≤ dest) (s : State) :
    execWith c (.bitreverse dest src) s = .next (s.takeMemoryFault dest) := by
  rw [execWith, bitreverse, directCell, memRead_of_lt hs, reversedCell, writeDest_ok_of_le hd, complete_error]

/-- Settles O21: each access is checked in turn, and the first that fails ends the instruction. -/
theorem firstInvalidAddressIsReported : Obligations.FirstInvalidAddressIsReported := by
  refine ⟨exec_eq, fun c s dest src => ⟨fun const hd => ?_, fun offset hs => ?_, fun offset hs he => ?_,
    fun offset hs he hd => ?_, ?_⟩⟩
  · rw [execWith, loadConst, memWrite_of_le hd]
    rfl
  · rw [execWith, readMemory, indirectCell_of_le hs]
    rfl
  · exact readMemory_of_le dest hs he
  · rw [execWith, readMemory, indirectCell_of_lt hs, effectiveAddress, memRead_of_lt he, writeDest_ok_of_le hd]
    rfl
  · rintro i (rfl | rfl)
    · exact ⟨fun hs => execWith_writeMemory_of_src_le hs dest s,
        fun hs hd => execWith_writeMemory_of_dest_le hs hd s⟩
    · exact ⟨fun hs => execWith_bitreverse_of_src_le hs dest s,
        fun hs hd => execWith_bitreverse_of_dest_le hs hd s⟩

end Sys2Proof.Machine
end

