-- ==== Sys2Proof/Proofs/Transactions.lean ====
section
/-! The transactions (spec/43_controller.md): what a STEP runs, when it is refused, where it halts and what its fault
leaves (spec/60_exceptions.md); which transactions a phase takes; the range DUMP reads. -/

namespace Sys2Proof.Machine

variable {c : Config} {s t : State}

/-! ## What a STEP runs -/

/-- `haltAtEnd` written out as the statements have it. -/
theorem State.haltAtEnd_eq (s : State) : s.haltAtEnd =
    if s.phase = .faulted then s else if s.pc = s.prog.length then { s with phase := .halted } else s := rfl

theorem step_of_fetch {i : Instr} (hp : s.phase.acceptsStep = true) (hi : s.prog[s.pc]? = some i)
    (h : exec i s.enterRunning = .next t) : step s = .next t.haltAtEnd := by
  simp [step, stepVia, hp, hi, h]

theorem step_at_end (hp : s.phase.acceptsStep = true) (hpc : s.pc = s.prog.length) :
    step s = .next { s with phase := .halted } := by
  have hi : s.prog[s.pc]? = none := by simp [hpc]
  have hhalt : s.enterRunning.haltAtEnd = { s with phase := .halted } := by
    rw [State.haltAtEnd_eq, if_neg (by simp), if_pos (by simpa using hpc)]
    rfl
  simp [step, stepVia, hp, hi, hhalt]

theorem step_of_not_accepts (hp : s.phase.acceptsStep = false) : step s = .refused (.notAccepted s.phase) := by
  simp [step, stepVia, hp]

theorem Phase.acceptsStep_eq_false {p : Phase} (hl : p ≠ .loaded) (hr : p ≠ .running) : p.acceptsStep = false := by
  rw [← Bool.not_eq_true, Phase.acceptsStep_iff]
  exact not_or.2 ⟨hl, hr⟩

/-! ## The transaction -/

theorem transact_step_of_next (h : step s = .next t) : transact .step s = (t, t.stepResponse) :=
  stepTransaction_of_next h

theorem transact_step_of_not_accepts (hp : s.phase.acceptsStep = false) : transact .step s = (s, .refused) := by
  have h : stepVia exec s = .refused (.notAccepted s.phase) := step_of_not_accepts hp
  simp [transact, transactVia, stepTransaction, h]

theorem State.stepResponse_of_fault {f : Fault} (hp : s.phase = .faulted) (hf : s.fault = some f) :
    s.stepResponse = .error f := by
  simp [State.stepResponse, hp, hf]

theorem State.stepResponse_of_ne_faulted (hp : s.phase ≠ .faulted) : s.stepResponse = .success := by
  unfold State.stepResponse
  split
  · exact absurd ‹_› hp
  · rfl

/-- Settles O25: the branches of STEP. -/
theorem stepRunsFetchedInstruction : Obligations.StepRunsFetchedInstruction := by
  refine fun s => ⟨fun i t hp hi h => ?_, fun hp hpc => ?_, fun hl hr => ?_, fun t h => ?_⟩
  · exact step_of_fetch ((Phase.acceptsStep_iff _).2 hp) hi h
  · exact step_at_end ((Phase.acceptsStep_iff _).2 hp) hpc
  · have hp := Phase.acceptsStep_eq_false hl hr
    exact ⟨step_of_not_accepts hp, transact_step_of_not_accepts hp⟩
  · rw [transact_step_of_next h]
    exact ⟨fun hp => by rw [State.stepResponse_of_ne_faulted hp],
      fun f hp hf => by rw [State.stepResponse_of_fault hp hf]⟩

/-- What a LOAD that succeeds puts into the program store. -/
theorem load_success {blob : List Byte} (h : load c blob s = (t, .success)) :
    ∃ P, decodeRecords c.strictDecode 0 blob = .ok P ∧ t = s.install P := by
  rcases load_cases c blob s with ⟨-, P, hB, -, e⟩ | ⟨-, k, -, e⟩ | e <;> rw [e] at h <;> cases h
  exact ⟨P, hB, rfl⟩

/-- Settles O26: the program's instruction at `k` is what record `k` decodes to. -/
theorem stepRunsLoadedRecord : Obligations.StepRunsLoadedRecord := by
  intro s t u v blob k i hload hk hrec hprog hpc hphase hexec
  obtain ⟨P, hB, rfl⟩ := load_success hload
  obtain ⟨hlen, hP⟩ := decodeRecords_ok hB
  have hget : P[k]? = some P[k] := List.getElem?_eq_getElem (hlen ▸ hk)
  have hi : P[k] = i := Except.ok.inj ((hP k _ hget).symm.trans hrec)
  refine step_of_fetch ((Phase.acceptsStep_iff _).2 hphase) ?_ hexec
  rw [hprog, hpc, State.install_prog, hget, hi]

/-! ## When a STEP is refused -/

/-- Settles O27: of the four cases of a step only the last is no next state. -/
theorem stepRefusedExactlyOutsideRun : Obligations.StepRefusedExactlyOutsideRun := by
  intro s
  rw [← Phase.acceptsStep_eq_false_iff]
  rcases step_cases s with ⟨i, v, hp, -, -, e⟩ | ⟨i, a, hp, -, -, e⟩ | ⟨hp, -, e⟩ | ⟨hp, e⟩ <;> rw [e, hp] <;> simp

/-! ## Where a step ends -/

/-- All that a step from a state with `pc` in its range can do to `pc`, the phase and the fault record: go on, halt at
the end, or fault before it. -/
theorem step_ends (hpc : s.pc ≤ s.prog.length) (h : step s = .next t) :
    (t.phase = .running ∧ t.pc = s.pc + 1 ∧ s.pc + 1 < s.prog.length ∧ t.fault = s.fault) ∨
      (t.phase = .halted ∧ t.pc = s.prog.length ∧ s.prog.length ≤ s.pc + 1 ∧ t.fault = s.fault) ∨
      (s.pc < s.prog.length ∧ ∃ a, 4096 ≤ a ∧ t = s.takeMemoryFault a) := by
  rcases step_cases s with ⟨i, v, -, hi, -, e⟩ | ⟨i, a, -, hi, ha, e⟩ | ⟨-, hend, e⟩ | ⟨-, e⟩ <;>
    rw [e] at h <;> cases h
  · obtain ⟨hlt, -⟩ := List.getElem?_eq_some_iff.1 hi
    rw [State.haltAtEnd_phase]
    rcases Nat.lt_or_ge (s.pc + 1) s.prog.length with hlt' | hge
    · exact .inl ⟨by simp [Nat.ne_of_lt hlt'], by simp, hlt', by simp⟩
    · have heq : s.pc + 1 = s.prog.length := by omega
      exact .inr (.inl ⟨by simp [heq], by simp [heq], hge, by simp⟩)
  · obtain ⟨hlt, -⟩ := List.getElem?_eq_some_iff.1 hi
    exact .inr (.inr ⟨hlt, a, ha, rfl⟩)
  · have heq : s.pc = s.prog.length := by omega
    exact .inr (.inl ⟨by simp [State.haltAtEnd_phase, heq], by simp [heq], by omega, by simp⟩)

/-- Halting takes no fault. -/
theorem State.haltAtEnd_phase_ne_faulted (h : s.phase ≠ .faulted) : s.haltAtEnd.phase ≠ .faulted := by
  rw [State.haltAtEnd_phase, if_neg h]
  split
  · decide
  · exact h

/-- A step that ends in phase Faulted took a MemoryFault, from any state. -/
theorem step_faulted (h : step s = .next t) (ht : t.phase = .faulted) : ∃ a, 4096 ≤ a ∧ t = s.takeMemoryFault a := by
  rcases step_cases s with ⟨i, v, -, -, -, e⟩ | ⟨i, a, -, -, ha, e⟩ | ⟨-, -, e⟩ | ⟨-, e⟩ <;> rw [e] at h <;> cases h
  · exact absurd ht (State.haltAtEnd_phase_ne_faulted Phase.noConfusion)
  · exact ⟨a, ha, rfl⟩
  · exact absurd ht (State.haltAtEnd_phase_ne_faulted Phase.noConfusion)

/-! ## The phase table -/

theorem transact_run_of_not_accepts (hp : s.phase.acceptsStep = false) : transact .run s = (s, .refused) := by
  simp [transact, transactVia, run, hp]

theorem transact_load_of_not_accepts (blob : List Byte) (hp : s.phase.acceptsLoad = false) :
    transact (.load blob) s = (s, .refused) :=
  load_of_not_accepts hw blob hp

/-- A LOAD that is accepted succeeds into Loaded or fails into Faulted. -/
theorem transact_load_of_accepts (blob : List Byte) (hp : s.phase.acceptsLoad = true) :
    ((transact (.load blob) s).2 = .success ∧ (transact (.load blob) s).1.phase = .loaded) ∨
      ((∃ e, (transact (.load blob) s).2 = .error e) ∧ (transact (.load blob) s).1.phase = .faulted) := by
  have h : transact (.load blob) s = _ := load_of_accepts blob hp
  rw [h]
  rcases decodeRecords false 0 blob with ⟨k, r⟩ | P
  · exact .inr ⟨⟨_, rfl⟩, rfl⟩
  · exact .inl ⟨rfl, rfl⟩

/-- DUMP is refused exactly in phase Faulted. -/
theorem transact_dump_eq_refused_iff (first last : Nat) (s : State) :
    (transact (.dump first last) s).2 = .refused ↔ s.phase = .faulted := by
  rw [← not_iff_not, ← Ne.eq_def s.phase, ← Phase.acceptsDump_iff]
  simp only [transact, transactVia, dump]
  split_ifs <;> simp [*]

/-- Phase Faulted takes no transaction but RESET. -/
theorem transact_of_faulted (hp : s.phase = .faulted) {r : Request} (hr : r ≠ .reset) :
    transact r s = (s, .refused) := by
  cases r with
  | reset => exact absurd rfl hr
  | load blob => exact transact_load_of_not_accepts blob (by rw [hp]; rfl)
  | step => exact transact_step_of_not_accepts (by rw [hp]; rfl)
  | run => exact transact_run_of_not_accepts (by rw [hp]; rfl)
  | dump first last => exact Prod.ext rfl ((transact_dump_eq_refused_iff first last s).2 hp)

/-- Settles O36: phase Faulted takes no other transaction. -/
theorem faultedLeftOnlyByReset : Obligations.FaultedLeftOnlyByReset := fun _ _ hp =>
  ⟨transact_of_faulted hp, rfl⟩

/-- Settles O37: memory after RESET lists nothing. -/
theorem resetState : Obligations.ResetState := by
  intro c s t r h
  cases h
  exact ⟨fun _ => rfl, rfl, rfl, rfl, rfl, rfl⟩

/-- Settles O30: the only step that ends in phase Faulted takes a MemoryFault in the state it began in. -/
theorem faultsArePrecise : Obligations.FaultsArePrecise := by
  intro s t h ht
  obtain ⟨a, ha, rfl⟩ := step_faulted h ht
  exact ⟨rfl, rfl, rfl, ⟨a, ha, rfl, transact_step_of_next h⟩, fun r hr => transact_of_faulted ht hr⟩

/-- Settles O29: a step ends Halted where it reaches the program's end, and a fault leaves `pc` before it. -/
theorem haltedExactlyAtEnd : Obligations.HaltedExactlyAtEnd := by
  refine ⟨fun s t hpc h => ?_, fun s hp => ⟨?_, ?_, fun blob => ?_, fun first last => ?_, Response.noConfusion⟩⟩
  · rw [step_prog h]
    rcases step_ends hpc h with ⟨hp, hpc', hlt, -⟩ | ⟨hp, hpc', -, -⟩ | ⟨hlt, a, -, rfl⟩
    · rw [hp, hpc']
      simp [Nat.ne_of_lt hlt]
    · simp [hp, hpc']
    · simp [Nat.ne_of_lt hlt]
  · exact transact_step_of_not_accepts (by rw [hp]; rfl)
  · exact transact_run_of_not_accepts (by rw [hp]; rfl)
  · rcases transact_load_of_accepts blob (s := s) (by rw [hp]; rfl) with ⟨h, -⟩ | ⟨⟨e, h⟩, -⟩ <;> simp [h]
  · simp [transact_dump_eq_refused_iff, hp]

/-! ## DUMP -/

theorem transact_dump_of_ok {first last : Nat} (hp : s.phase ≠ .faulted) (h : dumpRangeOk hw first last = true) :
    (transact (.dump first last) s).2 =
      .snapshot ((List.range' first (last + 1 - first)).map fun a => (a, s.cell hw a)) := by
  simp [transact, transactVia, dump, (Phase.acceptsDump_iff _).2 hp, h]

/-- Settles O38: the range test has exactly the two outcomes. -/
theorem dumpReadsRange : Obligations.DumpReadsRange := by
  intro s first last
  refine ⟨rfl, (transact_dump_eq_refused_iff first last s).2, fun hp hle hlast => ?_, fun hp hbad => ?_⟩
  · have hok : dumpRangeOk hw first last = true := (dumpRangeOk_iff ..).2 ⟨hle, Nat.lt_of_le_of_lt hle hlast, hlast⟩
    refine ⟨_, transact_dump_of_ok hp hok, ?_, fun k hk => ?_⟩
    · rw [List.length_map, List.length_range']
      omega
    · rw [List.getElem?_map, List.getElem?_range' (by omega)]
      simp
  · have hno : dumpRangeOk hw first last = false := by
      rw [← Bool.not_eq_true, dumpRangeOk_iff, show hw.memSize = 4096 from rfl]
      omega
    simp [transact, transactVia, dump, (Phase.acceptsDump_iff _).2 hp, hno]

end Sys2Proof.Machine
end

