-- ==== Sys2Proof/Proofs/Run.lean ====
section
/-! RUN (spec/43_controller.md section 3): the STEPs it repeats (R159), that it ends (R160), and that what it computes
is the document's semantics of the program. -/

namespace Sys2Proof.Machine

variable {s t u : State}

/-! ## The result of a RUN -/

theorem exists_step_of_accepts (hp : s.phase.acceptsStep = true) : ∃ t, step s = .next t := by
  rcases step_cases s with ⟨_, _, -, -, -, e⟩ | ⟨_, _, -, -, -, e⟩ | ⟨-, -, e⟩ | ⟨hno, -⟩
  · exact ⟨_, e⟩
  · exact ⟨_, e⟩
  · exact ⟨_, e⟩
  · rw [hp] at hno
    cases hno

theorem accepts_of_step (h : step s = .next t) : s.phase.acceptsStep = true := by
  by_contra hno
  rw [step_of_not_accepts (Bool.eq_false_iff.2 hno)] at h
  cases h

theorem stepTransaction_exec_of_next (h : step s = .next t) : stepTransaction exec s = (t, t.stepResponse) :=
  stepTransaction_of_next h

/-- A RUN answers what its last STEP answers. -/
theorem runSteps_response (n : Nat) (hp : s.phase.acceptsStep = true) :
    (runSteps exec n s).2 = (runSteps exec n s).1.stepResponse := by
  obtain ⟨t, ht⟩ := exists_step_of_accepts hp
  induction n generalizing s t with
  | zero => rw [runSteps, stepTransaction_exec_of_next ht]
  | succ n ih =>
    rw [runSteps, stepTransaction_exec_of_next ht]
    split
    · obtain ⟨t', ht'⟩ := exists_step_of_accepts ‹_›
      exact ih ‹_› t' ht'
    · rfl

theorem transact_run_of_accepts (hp : s.phase.acceptsStep = true) :
    transact .run s = runSteps exec (s.prog.length - s.pc) s := by
  simp [transact, transactVia, run, hp]

theorem transact_run_response (hp : s.phase.acceptsStep = true) :
    (transact .run s).2 = (transact .run s).1.stepResponse := by
  rw [transact_run_of_accepts hp]
  exact runSteps_response _ hp

theorem State.stepResponse_ne_refused (s : State) : s.stepResponse ≠ .refused := by
  unfold State.stepResponse
  split <;> exact Response.noConfusion

/-- Settles O35: STEP and RUN refuse before they do anything, a LOAD that is refused and DUMP leave the state. -/
theorem refusedChangesNothing : Obligations.RefusedChangesNothing := by
  intro s r h
  cases r with
  | reset => cases h
  | dump first last => rfl
  | load blob =>
    rcases load_cases hw blob s with ⟨-, P, -, -, e⟩ | ⟨-, k, -, e⟩ | e
    · rw [show transact (.load blob) s = _ from e] at h
      cases h
    · rw [show transact (.load blob) s = _ from e] at h
      cases h
    · exact congrArg Prod.fst e
  | step =>
    cases hp : s.phase.acceptsStep with
    | false => rw [transact_step_of_not_accepts hp]
    | true =>
      obtain ⟨t, ht⟩ := exists_step_of_accepts hp
      rw [transact_step_of_next ht] at h
      exact absurd h t.stepResponse_ne_refused
  | run =>
    cases hp : s.phase.acceptsStep with
    | false => rw [transact_run_of_not_accepts hp]
    | true =>
      rw [transact_run_response hp] at h
      exact absurd h (State.stepResponse_ne_refused _)

/-! ## RUN as an induction over its steps -/

/-- What relates every state to the one its last step ends in, and is passed back over each step that goes on, relates
the state before a RUN to the one after it. -/
theorem run_induction {P : State → State → Prop}
    (hlast : ∀ s t, s.pc ≤ s.prog.length → step s = .next t → t.phase.acceptsStep = false → P s t)
    (hmore : ∀ s t u, step s = .next t → t.phase = .running → t.pc = s.pc + 1 → s.pc + 1 < s.prog.length →
      t.fault = s.fault → P t u → P s u)
    (hp : s.phase.acceptsStep = true) (hpc : s.pc ≤ s.prog.length) : P s (transact .run s).1 := by
  rw [transact_run_of_accepts hp]
  generalize hn : s.prog.length - s.pc = n
  induction n generalizing s with
  | zero =>
    obtain ⟨t, ht⟩ := exists_step_of_accepts hp
    rw [runSteps, stepTransaction_exec_of_next ht]
    refine hlast s t hpc ht ?_
    rcases step_ends hpc ht with ⟨-, -, hlt, -⟩ | ⟨hhalt, -, -, -⟩ | ⟨hlt, -⟩
    · omega
    · rw [hhalt]
      rfl
    · omega
  | succ n ih =>
    obtain ⟨t, ht⟩ := exists_step_of_accepts hp
    rw [runSteps, stepTransaction_exec_of_next ht]
    rcases step_ends hpc ht with ⟨hrun, hpc', hlt, hfault⟩ | ⟨hhalt, -, -, -⟩ | ⟨-, a, -, rfl⟩
    · have hgo : t.phase.acceptsStep = true := by
        rw [hrun]
        rfl
      rw [if_pos hgo]
      refine hmore s t _ ht hrun hpc' hlt hfault (ih hgo ?_ ?_) <;> rw [step_prog ht, hpc'] <;> omega
    · have hstop : t.phase.acceptsStep = false := by
        rw [hhalt]
        rfl
      rw [if_neg (by simp [hstop])]
      exact hlast s t hpc ht hstop
    · exact hlast s _ hpc ht rfl

/-! ## Termination -/

/-- How a RUN ends (R160): Halted at the program's end with the fault record as it was, or Faulted before it with the
MemoryFault of the instruction at `pc`. -/
def RunEnds (s u : State) : Prop :=
  (u.phase = .halted ∧ u.pc = s.prog.length ∧ u.fault = s.fault) ∨
    (u.phase = .faulted ∧ u.pc < s.prog.length ∧ ∃ a, 4096 ≤ a ∧ u.fault = some (.memoryFault u.pc a))

theorem run_ends (hp : s.phase.acceptsStep = true) (hpc : s.pc ≤ s.prog.length) :
    RunEnds s (transact .run s).1 := by
  refine run_induction (P := RunEnds) (fun s t hpc h hstop => ?_) (fun s t u h _ _ _ hfault hu => ?_) hp hpc
  · rcases step_ends hpc h with ⟨hrun, -, -, -⟩ | ⟨hhalt, hend, -, hfault⟩ | ⟨hlt, a, ha, rfl⟩
    · rw [hrun] at hstop
      cases hstop
    · exact .inl ⟨hhalt, hend, hfault⟩
    · exact .inr ⟨rfl, hlt, a, ha, rfl⟩
  · unfold RunEnds at hu
    rwa [step_prog h, hfault] at hu

/-- Settles O40: the result is that of the state the RUN ends in. -/
theorem runTerminates : Obligations.RunTerminates := by
  intro s hphase hpc hfault
  have hp := (Phase.acceptsStep_iff _).2 hphase
  have hresponse := transact_run_response hp
  rcases run_ends hp hpc with ⟨hhalt, hend, hnone⟩ | ⟨hfaulted, hlt, a, ha, hrec⟩
  · refine .inl ⟨hhalt, hend, hnone.trans hfault, ?_⟩
    rw [hresponse, State.stepResponse_of_ne_faulted (by rw [hhalt]; decide)]
  · refine .inr ⟨hfaulted, hlt, a, ha, hrec, ?_⟩
    rw [hresponse, State.stepResponse_of_fault hfaulted hrec]

/-- Settles O34: the table row by row. -/
theorem transactionsFollowPhaseTable : Obligations.TransactionsFollowPhaseTable := by
  refine fun s hpc => ⟨rfl, fun blob => ⟨fun h => transact_load_of_not_accepts blob ?_, fun h =>
    transact_load_of_accepts blob ((Phase.acceptsLoad_iff _).2 h)⟩, fun h => ?_, fun h => ?_, fun first last =>
    ⟨rfl, transact_dump_eq_refused_iff first last s⟩⟩
  · rcases h with h | h <;> rw [h] <;> rfl
  · have hp := (Phase.acceptsStep_iff _).2 h
    obtain ⟨t, ht⟩ := exists_step_of_accepts hp
    rw [transact_step_of_next ht, transact_run_response hp]
    refine ⟨t.stepResponse_ne_refused, State.stepResponse_ne_refused _, ?_, (run_ends hp hpc).imp And.left And.left⟩
    rcases step_ends hpc ht with ⟨hrun, -⟩ | ⟨hhalt, -⟩ | ⟨-, a, -, rfl⟩
    · exact .inl hrun
    · exact .inr (.inl hhalt)
    · exact .inr (.inr rfl)
  · have hp := (Phase.acceptsStep_eq_false_iff _).2 h
    exact ⟨transact_step_of_not_accepts hp, transact_run_of_not_accepts hp⟩

/-! ## RUN as repeated STEP -/

/-- `k` steps of the core from `s` end in `u`, Running between them, `pc` one further after each; `u` is Halted after
all the steps left, or Faulted. -/
structure RunsIn (k : Nat) (s u : State) : Prop where
  pos : 1 ≤ k
  le : k ≤ max 1 (s.prog.length - s.pc)
  run : Host.Core.run core k s = .next u
  between : ∀ j, 1 ≤ j → j < k → ∃ t, Host.Core.run core j s = .next t ∧ t.phase = .running ∧ t.pc = s.pc + j
  ends : (u.phase = .halted ∧ k = max 1 (s.prog.length - s.pc) ∧ u.pc = s.prog.length) ∨ u.phase = .faulted

theorem run_succ_of_next {M : Host.Core} {s t : M.State} (k : Nat) (h : M.step s = .next t) :
    M.run (k + 1) s = M.run k t := by
  rw [Host.Core.run, h]

theorem core_run_succ (k : Nat) (h : step s = .next t) :
    Host.Core.run core (k + 1) s = Host.Core.run core k t :=
  run_succ_of_next (M := core) k h

theorem runsIn_one (hpc : s.pc ≤ s.prog.length) (h : step s = .next t) (hstop : t.phase.acceptsStep = false) :
    RunsIn 1 s t where
  pos := Nat.le_refl 1
  le := Nat.le_max_left 1 _
  run := core_run_succ 0 h
  between j hj hlt := absurd hj (Nat.not_le.2 hlt)
  ends := by
    rcases step_ends hpc h with ⟨hrun, -⟩ | ⟨hhalt, hend, hlast, -⟩ | ⟨-, a, -, rfl⟩
    · rw [hrun] at hstop
      cases hstop
    · exact .inl ⟨hhalt, by omega, hend⟩
    · exact .inr rfl

theorem RunsIn.succ {k : Nat} (h : step s = .next t) (hrun : t.phase = .running) (hpc : t.pc = s.pc + 1)
    (hlt : s.pc + 1 < s.prog.length) (ht : RunsIn k t u) : RunsIn (k + 1) s u := by
  have hprog := step_prog h
  obtain ⟨hpos, hle, hcore, hbetween, hends⟩ := ht
  rw [hprog, hpc] at hle hends
  refine ⟨Nat.le_add_left 1 k, by omega, (core_run_succ k h).trans hcore, fun j hj hjk => ?_, ?_⟩
  · obtain ⟨j, rfl⟩ : ∃ j', j = j' + 1 := ⟨j - 1, by omega⟩
    rw [core_run_succ j h]
    rcases Nat.eq_zero_or_pos j with rfl | hj'
    · exact ⟨t, rfl, hrun, hpc⟩
    · obtain ⟨v, hv, hvrun, hvpc⟩ := hbetween j hj' (by omega)
      exact ⟨v, hv, hvrun, by omega⟩
  · exact hends.imp_left fun ⟨hhalt, hk, hend⟩ => ⟨hhalt, by omega, hend⟩

/-- Settles O39: a RUN is a step that ends it, or a step that goes on and the RUN after it. -/
theorem runIsRepeatedStep : Obligations.RunIsRepeatedStep := by
  refine fun s => ⟨fun hl hr => transact_run_of_not_accepts (Phase.acceptsStep_eq_false hl hr), fun hphase hpc => ?_⟩
  have hp := (Phase.acceptsStep_iff _).2 hphase
  obtain ⟨k, hpos, hle, hcore, hbetween, hends⟩ :=
    run_induction (P := fun s u => ∃ k, RunsIn k s u) (fun _ _ hpc h hstop => ⟨1, runsIn_one hpc h hstop⟩)
      (fun _ _ _ h hrun hpc hlt _ ⟨k, hk⟩ => ⟨k + 1, hk.succ h hrun hpc hlt⟩) hp hpc
  refine ⟨k, hpos, hle, hcore, hbetween, hends.imp_left fun ⟨hhalt, hk, hend⟩ => ⟨hhalt, hk, hend, ?_⟩⟩
  rw [transact_run_response hp, State.stepResponse_of_ne_faulted (by rw [hhalt]; decide)]

/-! ## RUN computes the program's meaning -/

/-- A step of an in-range instruction is its assignment, or its MemoryFault. -/
theorem step_meaning {i : Instr} (hi : s.prog[s.pc]? = some i) (hwf : i.WellFormed) (h : step s = .next t) :
    (instrMeaning 4096 (s.cell hw) i = .ok (t.cell hw) ∧ t.phase ≠ .faulted) ∨
      ∃ a, instrMeaning 4096 (s.cell hw) i = .error a ∧ t = s.takeMemoryFault a := by
  rcases exec_meaning hwf s.enterRunning with ⟨v, hexec, hmeaning, -, hframe⟩ | ⟨a, hexec, hmeaning, -⟩ <;>
    rw [step_of_fetch (accepts_of_step h) hi hexec] at h <;> cases h
  · have hcell : v.haltAtEnd.cell hw = v.cell hw := funext (State.cell_congr v.haltAtEnd_mem)
    refine .inl ⟨by rw [hcell]; exact hmeaning, State.haltAtEnd_phase_ne_faulted ?_⟩
    rw [hframe.phase]
    exact Phase.noConfusion
  · exact .inr ⟨a, hmeaning, rfl⟩

theorem programMeaning_cons_ok {size k : Nat} {i : Instr} {is : List Instr} {M M' : Nat → Cell}
    (h : instrMeaning size M i = .ok M') : programMeaning size k (i :: is) M = programMeaning size (k + 1) is M' := by
  rw [programMeaning, h]

theorem programMeaning_cons_error {size k a : Nat} {i : Instr} {is : List Instr} {M : Nat → Cell}
    (h : instrMeaning size M i = .error a) : programMeaning size k (i :: is) M = (M, some (.memoryFault k a)) := by
  rw [programMeaning, h]

/-- The meaning of the program left to run in `s` is the cells and the fault record of `u`. -/
def Computes (s u : State) : Prop :=
  programMeaning 4096 s.pc (s.prog.drop s.pc) (s.cell hw) = (u.cell hw, u.fault)

/-- The program left to run, where there is an instruction at `pc`. -/
theorem drop_pc_of_fetch {i : Instr} (hi : s.prog[s.pc]? = some i) :
    s.prog.drop s.pc = i :: s.prog.drop (s.pc + 1) := by
  obtain ⟨hlt, rfl⟩ := List.getElem?_eq_some_iff.1 hi
  exact List.drop_eq_getElem_cons hlt

/-- The last step of a RUN: nothing is left after it, or its fault ends the meaning. -/
theorem computes_of_last (hfault : s.fault = none) (hwf : ∀ i ∈ s.prog, i.WellFormed)
    (hpc : s.pc ≤ s.prog.length) (h : step s = .next t) (hstop : t.phase.acceptsStep = false) : Computes s t := by
  unfold Computes
  cases hi : s.prog[s.pc]? with
  | none =>
    have hend : s.prog.length ≤ s.pc := List.getElem?_eq_none_iff.1 hi
    rw [step_at_end (accepts_of_step h) (Nat.le_antisymm hpc hend)] at h
    cases h
    rw [List.drop_eq_nil_of_le hend, programMeaning, ← hfault]
    rfl
  | some i =>
    rw [drop_pc_of_fetch hi]
    rcases step_meaning hi (hwf i (List.mem_of_getElem? hi)) h with ⟨hmeaning, hok⟩ | ⟨a, hmeaning, rfl⟩
    · rw [programMeaning_cons_ok hmeaning]
      rcases step_ends hpc h with ⟨hrun, -⟩ | ⟨-, -, hlast, hrec⟩ | ⟨-, a, -, rfl⟩
      · rw [hrun] at hstop
        cases hstop
      · rw [List.drop_eq_nil_of_le hlast, hrec, hfault, programMeaning]
      · exact absurd rfl hok
    · rw [programMeaning_cons_error hmeaning]
      rfl

/-- A step that goes on: the meaning is that of the rest of the program from the cells it leaves. -/
theorem computes_of_more (hwf : ∀ i ∈ s.prog, i.WellFormed) (h : step s = .next t) (hrun : t.phase = .running)
    (hpc : t.pc = s.pc + 1) (hlt : s.pc + 1 < s.prog.length) (hu : Computes t u) : Computes s u := by
  have hi : s.prog[s.pc]? = some s.prog[s.pc] := List.getElem?_eq_getElem (by omega)
  unfold Computes at hu ⊢
  rw [step_prog h, hpc] at hu
  rw [drop_pc_of_fetch hi]
  rcases step_meaning hi (hwf _ (List.getElem_mem _)) h with ⟨hmeaning, -⟩ | ⟨a, -, rfl⟩
  · rw [programMeaning_cons_ok hmeaning, hu]
  · cases hrun

theorem run_computes (hp : s.phase.acceptsStep = true) (hpc : s.pc ≤ s.prog.length) (hfault : s.fault = none)
    (hwf : ∀ i ∈ s.prog, i.WellFormed) : Computes s (transact .run s).1 :=
  run_induction (P := fun s u => s.fault = none → (∀ i ∈ s.prog, i.WellFormed) → Computes s u)
    (fun _ _ hpc h hstop hfault hwf => computes_of_last hfault hwf hpc h hstop)
    (fun _ _ _ h hrun hpc hlt hrec hu hfault hwf => computes_of_more hwf h hrun hpc hlt
      (hu (hrec.trans hfault) (by rwa [step_prog h])))
    hp hpc hfault hwf

/-- Settles O41: the cells and the fault record are the meaning's, and the fault record says how the RUN ended. -/
theorem runComputesProgramMeaning : Obligations.RunComputesProgramMeaning := by
  intro s hloaded hpc hfault hwf
  have hpc' : s.pc ≤ s.prog.length := by omega
  have hcomputes : programMeaning 4096 0 s.prog (s.cell hw) =
      ((transact .run s).1.cell hw, (transact .run s).1.fault) := by
    have h := run_computes (by rw [hloaded]; rfl) hpc' hfault hwf
    unfold Computes at h
    rwa [hpc, List.drop_zero] at h
  rw [hcomputes]
  refine ⟨fun _ => rfl, rfl, ?_⟩
  rcases runTerminates s (.inl hloaded) hpc' hfault with
    ⟨hhalt, hend, hnone, hsuccess⟩ | ⟨hfaulted, -, a, -, hrec, herror⟩
  · refine ⟨fun _ => ⟨hhalt, hend, hsuccess⟩, fun f hf => ?_⟩
    rw [hnone] at hf
    cases hf
  · refine ⟨fun hnone => ?_, fun f hf => ⟨hfaulted, ?_⟩⟩
    · rw [hrec] at hnone
      cases hnone
    · rw [herror, Option.some.inj (hrec.symm.trans hf)]

end Sys2Proof.Machine
end

