-- ==== Sys2Proof/Proofs/Execute.lean ====
section
/-! The command `execute` (spec/43_controller.md section 6): RESET, LOAD, RUN and DUMP, each only after success. -/

namespace Sys2Proof.Machine

variable {s t u : State} {blob : List Byte}

/-! ## The command, transaction by transaction -/

/-- RESET succeeds and discards the state before it, so the command begins with LOAD from reset. -/
theorem execute_eq (blob : List Byte) (first last : Nat) (s : State) :
    execute blob first last s =
      afterSuccess (transact (.load blob) State.reset) fun t =>
        afterSuccess (transact .run t) fun u => transact (.dump first last) u := rfl

/-- After a LOAD and a RUN that succeed the command answers what DUMP does. -/
theorem execute_of_success (first last : Nat) (s : State) (hload : transact (.load blob) State.reset = (t, .success))
    (hrun : transact .run t = (u, .success)) :
    (execute blob first last s).2 = (transact (.dump first last) u).2 := by
  rw [execute_eq, hload, afterSuccess_success, hrun, afterSuccess_success]

/-- After a LOAD that succeeds the command answers the error of its RUN. -/
theorem execute_of_run_error (first last : Nat) (s : State) {f : Fault}
    (hload : transact (.load blob) State.reset = (t, .success)) (hrun : (transact .run t).2 = .error f) :
    (execute blob first last s).2 = .error f := by
  rw [execute_eq, hload, afterSuccess_success, afterSuccess_of_ne (by rw [hrun]; exact Response.noConfusion), hrun]

/-- Only success hands over to the next transaction: the answer is its own, or one that is no success. -/
theorem afterSuccess_cases (p : State × Response) (k : State → State × Response) :
    (p.2 = .success ∧ afterSuccess p k = k p.1) ∨ (p.2 ≠ .success ∧ afterSuccess p k = p) := by
  by_cases h : p.2 = .success
  · exact .inl ⟨h, if_pos h⟩
  · exact .inr ⟨h, if_neg h⟩

/-! ## No snapshot but DUMP's -/

theorem load_ne_snapshot (blob : List Byte) (s : State) (cells : List (Nat × Cell)) :
    (transact (.load blob) s).2 ≠ .snapshot cells := by
  change (load hw blob s).2 ≠ _
  rcases load_cases hw blob s with ⟨-, P, -, -, e⟩ | ⟨-, k, -, e⟩ | e <;> rw [e] <;> exact Response.noConfusion

theorem State.stepResponse_ne_snapshot (s : State) (cells : List (Nat × Cell)) : s.stepResponse ≠ .snapshot cells := by
  unfold State.stepResponse
  split <;> exact Response.noConfusion

theorem run_ne_snapshot (s : State) (cells : List (Nat × Cell)) : (transact .run s).2 ≠ .snapshot cells := by
  cases hp : s.phase.acceptsStep with
  | false =>
    rw [transact_run_of_not_accepts hp]
    exact Response.noConfusion
  | true =>
    rw [transact_run_response hp]
    exact State.stepResponse_ne_snapshot _ cells

/-- A RUN after a LOAD that succeeded is a success only if it ended Halted. -/
theorem run_halted_of_success (hload : (transact (.load blob) s).2 = .success)
    (hrun : (transact .run (transact (.load blob) s).1).2 = .success) :
    (transact .run (transact (.load blob) s).1).1.phase = .halted := by
  obtain ⟨P, -, ht⟩ := load_success (c := hw) (t := (transact (.load blob) s).1) (Prod.ext rfl hload)
  rw [ht] at hrun ⊢
  rcases runTerminates (s.install P) (.inl rfl) (Nat.zero_le _) rfl with ⟨hhalt, -⟩ | ⟨-, -, a, -, -, herror⟩
  · exact hhalt
  · rw [herror] at hrun
    cases hrun

/-- Settles O43: the command begins from reset, and neither LOAD nor RUN answers a snapshot. -/
theorem snapshotOnlyAfterSuccess : Obligations.SnapshotOnlyAfterSuccess := by
  refine fun blob first last s s' => ⟨rfl, fun cells h => ?_⟩
  rw [execute_eq] at h
  rcases afterSuccess_cases (transact (.load blob) State.reset) _ with ⟨hload, e⟩ | ⟨-, e⟩ <;> rw [e] at h
  · rcases afterSuccess_cases (transact .run (transact (.load blob) State.reset).1) _ with ⟨hrun, e⟩ | ⟨-, e⟩ <;>
      rw [e] at h
    · exact ⟨hload, hrun, run_halted_of_success hload hrun, h⟩
    · exact absurd h (run_ne_snapshot _ cells)
  · exact absurd h (load_ne_snapshot blob _ cells)

/-! ## The command on an encoded program -/

/-- LOAD of a program's records installs the program, each operand reduced to its field. -/
theorem load_flatMap_encode (P : List Instr) :
    transact (.load (P.flatMap encode)) State.reset = (State.reset.install (P.map Instr.truncate), .success) :=
  load_of_decodeRecords_ok (s := State.reset) rfl (decodeRecords_flatMap_encode false 0 P)

theorem map_truncate_of_wellFormed {P : List Instr} (h : ∀ i ∈ P, i.WellFormed) : P.map Instr.truncate = P :=
  (List.map_congr_left fun i hi => Instr.truncate_of_wellFormed (h i hi)).trans (List.map_id' P)

/-- Settles O42: the program loads as it is, and its RUN from the reset cells computes its meaning. -/
theorem executeEncodedProgram : Obligations.ExecuteEncodedProgram := by
  intro P first last s hwf
  have hload := load_flatMap_encode P
  rw [map_truncate_of_wellFormed hwf] at hload
  obtain ⟨hcells, -, hok, herror⟩ := runComputesProgramMeaning (State.reset.install P) rfl rfl rfl hwf
  refine ⟨fun hnone hle hlast => ?_, fun f hf => execute_of_run_error first last s hload (herror f hf).2⟩
  obtain ⟨hhalt, -, hsuccess⟩ := hok hnone
  rw [execute_of_success first last s hload (Prod.ext rfl hsuccess), transact_dump_of_ok]
  · exact congrArg Response.snapshot (List.map_congr_left fun a _ => congrArg (Prod.mk a) (hcells a))
  · rw [hhalt]
    exact Phase.noConfusion
  · exact (dumpRangeOk_iff ..).2 ⟨hle, Nat.lt_of_le_of_lt hle hlast, hlast⟩

end Sys2Proof.Machine
end

