-- ==== Sys2Proof/Proofs/Assembler.lean ====
section
/-! The assembler (spec/30_encoding.md section 8): the blob and the trace follow the instructions (R89), operand counts
(R84, R85), and which line a syntax error names (R87). -/

namespace Sys2Proof.Machine

/-! ## The output follows the instructions -/

/-- The blob and the trace's bytes are the encodings of the instructions, in order. -/
structure AsmOutput.Encodes (out : AsmOutput) : Prop where
  blob : out.blob = out.instrs.flatMap encode
  trace : out.trace.map (fun r => r.bytes) = out.instrs.map encode

theorem AsmOutput.Encodes.emit {out : AsmOutput} (h : out.Encodes) (line : Nat) (a : Option AsmInstr) :
    (out.emit line a).Encodes := by
  cases a with
  | none => exact h
  | some a => exact ⟨by simp [AsmOutput.emit, h.blob], by simp [AsmOutput.emit, h.trace]⟩

theorem AsmOutput.Encodes.bind {out out' : AsmOutput} {label : Text} (h : out.Encodes)
    (hbind : out.bind label = .ok out') : out'.Encodes := by
  unfold AsmOutput.bind at hbind
  split_ifs at hbind
  cases hbind
  exact ⟨h.blob, h.trace⟩

theorem AsmOutput.Encodes.assembleRest {line : Nat} {t : Text} {out out' : AsmOutput} (h : out.Encodes)
    (hrest : assembleRest line t out = .ok out') : out'.Encodes := by
  unfold Machine.assembleRest at hrest
  split at hrest <;> cases hrest
  exact h.emit line _

/-- A line that assembles is skipped, or an instruction line, or a label that is bound and the rest of the line. -/
theorem assembleLine_ok {line : Nat} {t : Text} {out out' : AsmOutput} (h : assembleLine line t out = .ok out') :
    out' = out ∨ assembleRest line t out = .ok out' ∨
      ∃ label rest bound, out.bind label = .ok bound ∧ assembleRest line rest bound = .ok out' := by
  unfold assembleLine at h
  split at h
  · cases h
    exact .inl rfl
  · split at h
    · exact .inr (.inl h)
    · split at h
      · cases h
      · exact .inr (.inr ⟨_, _, _, ‹_›, h⟩)

theorem AsmOutput.Encodes.assembleLine {line : Nat} {t : Text} {out out' : AsmOutput} (h : out.Encodes)
    (hline : assembleLine line t out = .ok out') : out'.Encodes := by
  rcases assembleLine_ok hline with rfl | hrest | ⟨label, rest, bound, hbind, hrest⟩
  · exact h
  · exact h.assembleRest hrest
  · exact (h.bind hbind).assembleRest hrest

theorem AsmOutput.Encodes.assembleLines {line : Nat} {ts : List Text} {out out' : AsmOutput} (h : out.Encodes)
    (hlines : assembleLines line ts out = .ok out') : out'.Encodes := by
  induction ts generalizing line out with
  | nil =>
    cases hlines
    exact h
  | cons t ts ih =>
    rw [Machine.assembleLines] at hlines
    split at hlines
    · cases hlines
    · exact ih (h.assembleLine ‹_›) hlines

theorem length_flatMap_encode (P : List Instr) : (P.flatMap encode).length = 6 * P.length := by
  simp [List.length_flatMap, Nat.mul_comm]

/-- Settles O47: the blob is the records of the instructions, whose LOAD reads each operand back from its field. -/
theorem assembledBlobLoads : Obligations.AssembledBlobLoads := by
  intro source out h
  have hout : out.Encodes := AsmOutput.Encodes.assembleLines ⟨rfl, rfl⟩ h
  refine ⟨hout.blob, ?_, hout.trace, ?_⟩
  · rw [hout.blob, length_flatMap_encode]
  · rw [hout.blob, load_flatMap_encode]
    rfl

/-! ## The line of a syntax error -/

theorem assembleRest_error_line {line : Nat} {t : Text} {out : AsmOutput} {e : SyntaxError}
    (h : assembleRest line t out = .error e) : e.line = line := by
  unfold assembleRest at h
  split at h <;> cases h
  rfl

theorem assembleLine_error_line {line : Nat} {t : Text} {out : AsmOutput} {e : SyntaxError}
    (h : assembleLine line t out = .error e) : e.line = line := by
  unfold assembleLine at h
  split at h
  · cases h
  · split at h
    · exact assembleRest_error_line h
    · split at h
      · cases h
        rfl
      · exact assembleRest_error_line h

/-- The error of a list of lines is that of its line `k`, the first that does not assemble. -/
theorem assembleLines_error {line : Nat} {ts : List Text} {out : AsmOutput} {e : SyntaxError}
    (h : assembleLines line ts out = .error e) :
    ∃ k < ts.length, e.line = line + k ∧ (∃ out', assembleLines line (ts.take k) out = .ok out') ∧
      assembleLines line (ts.take (k + 1)) out = .error e := by
  induction ts generalizing line out with
  | nil => cases h
  | cons t ts ih =>
    rw [assembleLines] at h
    cases ht : assembleLine line t out with
    | error e' =>
      rw [ht] at h
      cases h
      exact ⟨0, Nat.succ_pos _, assembleLine_error_line ht, ⟨out, rfl⟩, by simp [assembleLines, ht]⟩
    | ok out' =>
      rw [ht] at h
      obtain ⟨k, hk, hline, ⟨out'', hbefore⟩, hat⟩ := ih h
      exact ⟨k + 1, Nat.succ_lt_succ hk, by omega, ⟨out'', by simp [assembleLines, ht, hbefore]⟩,
        by simpa [assembleLines, ht] using hat⟩

/-- Settles O49: line `k + 1` of the source, numbered from 1. -/
theorem syntaxErrorNamesFirstBadLine : Obligations.SyntaxErrorNamesFirstBadLine := by
  intro source e h
  obtain ⟨k, hk, hline, hbefore, hat⟩ := assembleLines_error h
  obtain rfl : k = e.line - 1 := by omega
  refine ⟨by omega, by omega, hbefore, ?_⟩
  rwa [Nat.sub_add_cancel (by omega)] at hat

/-! ## Operand counts -/

theorem countOk_iff (o : Opcode) (n : Nat) : countOk o n = true ↔ n = 2 ∨ (o = .readMemory ∧ n = 3) := by
  unfold countOk
  rw [Bool.or_eq_true, Bool.and_eq_true, decide_eq_true_iff, decide_eq_true_iff, beq_iff_eq]
  cases o <;> simp [Opcode.arity, or_comm]

theorem parseOperands_length {ops : List Text} {ns : List Nat} (h : parseOperands ops = some ns) :
    ns.length = ops.length := by
  induction ops generalizing ns with
  | nil =>
    cases h
    rfl
  | cons t ts ih =>
    rw [parseOperands] at h
    split at h <;> cases h
    simp [ih ‹_›]

/-- One more integer operand adds its value. -/
theorem parseOperands_append_singleton (ts : List Text) {t : Text} {n : Nat} (h : parseOperand t = some n) :
    parseOperands (ts ++ [t]) = (parseOperands ts).map (· ++ [n]) := by
  induction ts with
  | nil => simp [parseOperands, h]
  | cons x xs ih =>
    rw [List.cons_append, parseOperands, parseOperands, ih]
    cases parseOperand x <;> cases parseOperands xs <;> rfl

/-- A count that is right fills up to the arity. -/
theorem fillOffset_length {o : Opcode} {ns : List Nat} (h : countOk o ns.length = true) :
    (fillOffset o ns).length = o.arity := by
  rcases (countOk_iff o ns.length).1 h with htwo | ⟨rfl, hthree⟩
  · obtain ⟨a, b, rfl⟩ := List.length_eq_two.1 htwo
    cases o <;> rfl
  · obtain ⟨a, b, c, rfl⟩ := List.length_eq_three.1 hthree
    rfl

/-- An instruction line with integer operands in the right number (R84, R85). -/
theorem assembleOperands_of_values {m : Text} {o : Opcode} {ops : List Text} {ns : List Nat} {i : Instr}
    (hm : opcodeOf m = some o) (hcount : countOk o ops.length = true) (hns : parseOperands ops = some ns)
    (hi : o.build (fillOffset o ns) = some i) : assembleOperands m ops = .ok i := by
  simp [assembleOperands, hm, hcount, hns, hi]

theorem assembleOperands_of_nonInteger {m : Text} {o : Opcode} {ops : List Text}
    (hm : opcodeOf m = some o) (hcount : countOk o ops.length = true) (hns : parseOperands ops = none) :
    assembleOperands m ops = .error .nonIntegerOperand := by
  simp [assembleOperands, hm, hcount, hns]

theorem assembleOperands_of_wrong_count {m : Text} {o : Opcode} {ops : List Text}
    (hm : opcodeOf m = some o) (hcount : countOk o ops.length = false) :
    assembleOperands m ops = .error .operandCount := by
  simp [assembleOperands, hm, hcount]

/-- READ's omitted offset is 0 (R85), also where an operand is no integer. -/
theorem assembleOperands_read_two (d s : Text) :
    assembleOperands ['R', 'E', 'A', 'D'] [d, s] = assembleOperands ['R', 'E', 'A', 'D'] [d, s, ['0']] := by
  have hm : opcodeOf ['R', 'E', 'A', 'D'] = some .readMemory := by decide
  have hzero : parseOperands [d, s, ['0']] = (parseOperands [d, s]).map (· ++ [0]) :=
    parseOperands_append_singleton [d, s] (by decide)
  cases hns : parseOperands [d, s] with
  | none =>
    have hns' : parseOperands [d, s, ['0']] = none := by
      rw [hzero, hns]
      rfl
    rw [assembleOperands_of_nonInteger hm rfl hns, assembleOperands_of_nonInteger hm rfl hns']
  | some ns =>
    obtain ⟨a, b, rfl⟩ := List.length_eq_two.1 (parseOperands_length hns)
    have hns' : parseOperands [d, s, ['0']] = some [a, b, 0] := by
      rw [hzero, hns]
      rfl
    rw [assembleOperands_of_values (i := .readMemory a b 0) hm rfl hns rfl,
      assembleOperands_of_values hm rfl hns' rfl]

/-- Settles O48: the mnemonic gives the opcode, the count decides first, and the operands build the instruction. -/
theorem readOffsetDefaultsToZero : Obligations.ReadOffsetDefaultsToZero := by
  refine ⟨assembleOperands_read_two, fun x y z a b c hx hy hz => ?_, fun m o ops hm => ⟨fun hcount ns hns => ?_,
    fun htwo hthree => ?_⟩⟩
  · have hxy : parseOperands [x, y] = some [a, b] := by simp [parseOperands, hx, hy]
    have hxyz : parseOperands [x, y, z] = some [a, b, c] := by simp [parseOperands, hx, hy, hz]
    exact ⟨assembleOperands_of_values (o := .loadConst) (by decide) rfl hxy rfl,
      assembleOperands_of_values (o := .readMemory) (by decide) rfl hxy rfl,
      assembleOperands_of_values (o := .readMemory) (by decide) rfl hxyz rfl,
      assembleOperands_of_values (o := .writeMemory) (by decide) rfl hxy rfl,
      assembleOperands_of_values (o := .bitreverse) (by decide) rfl hxy rfl⟩
  · have hok := (countOk_iff o ops.length).2 hcount
    have hlen := fillOffset_length (by rwa [parseOperands_length hns])
    rcases o.build_cases (fillOffset o ns) with ⟨-, i, hi, ho⟩ | ⟨hne, -⟩
    · exact ⟨i, hi, ho, assembleOperands_of_values hm hok hns hi⟩
    · exact absurd hlen hne
  · refine assembleOperands_of_wrong_count hm (Bool.eq_false_iff.2 fun hok => ?_)
    exact ((countOk_iff o ops.length).1 hok).elim htwo hthree

end Sys2Proof.Machine
end
